-- ==== Sys2Proof/Word.lean ====
section
/-! DEFINITION. The value types of the hardware (00_scope R7, R15): u32 words, u8 bytes, u64 values. -/

namespace Sys2Proof

/-- u32: "a 32-bit unsigned word" (R15). -/
abbrev Word := BitVec 32

/-- u8: "an 8-bit byte" (R15). -/
abbrev Byte := BitVec 8

/-- u64: "a 64-bit unsigned word" (R15). -/
abbrev DWord := BitVec 64

end Sys2Proof
end

