-- ==== Sys2Proof/Machine/Functions.lean ====
section
/-! DEFINITION. The combinational functions of 41_functions (R130-R139). ADD32, AND, XOR and NOT are `+`, `&&&`, `^^^`
and `~~~` of BitVec 32 (R130, R133). -/

namespace Sys2Proof.Machine

/-- ROTR(n, x) = ((x >> n) | (x << (32 - n))) mod 2^32 (R131). -/
def rotr (n : Nat) (x : Word) : Word := (x >>> n) ||| (x <<< (32 - n))

/-- SHR(n, x) = floor(x / 2^n) (R132). -/
def shr (n : Nat) (x : Word) : Word := x >>> n

/-- The small sigma 0 (R134). -/
def sigma0 (x : Word) : Word := rotr 7 x ^^^ rotr 18 x ^^^ shr 3 x

/-- The small sigma 1 (R135). -/
def sigma1 (x : Word) : Word := rotr 17 x ^^^ rotr 19 x ^^^ shr 10 x

/-- The big sigma 0 (R136). -/
def bigSigma0 (a : Word) : Word := rotr 2 a ^^^ rotr 13 a ^^^ rotr 22 a

/-- The big sigma 1 (R137). -/
def bigSigma1 (e : Word) : Word := rotr 6 e ^^^ rotr 11 e ^^^ rotr 25 e

/-- Choose (R138). -/
def ch (e f g : Word) : Word := (e &&& f) ^^^ (~~~e &&& g)

/-- Majority (R139). -/
def maj (a b c : Word) : Word := (a &&& b) ^^^ (b &&& c) ^^^ (c &&& a)

end Sys2Proof.Machine
end

