-- ==== Sys2Proof/Config.lean ====
section
/-! DEFINITION. The spec's OPEN platform parameters (00_scope section 4). -/

namespace Sys2Proof.Config

/-- The capacity that `State.reset` starts with. MSG_CAP is OPEN (R12) and "the model takes it as an
argument": it is the field `msgCap` of State, and every statement is for every value of that field.
DESIGN CHOICE (log entry 4), unsafe where a statement is about `State.reset` alone: 64 is the capacity of
the programs of 95_test_vectors.md. -/
def msgCap : Nat := 64

/-- N_INSTANCES (R14), OPEN and without a value here, but at least 1: a positive natural.
Instances share no mutable state (R72, R241), so no rule of one instance reads it. -/
opaque nInstances : ℕ+

/-- MSG_BASE (R62), OPEN: "which no rule of this spec reads". -/
opaque msgBase : Nat

/-- REG_BASE (R62), OPEN: "which no rule of this spec reads". -/
opaque regBase : Nat

end Sys2Proof.Config
end

