-- ==== Sys2Proof/Syntax.lean ====
section
/-! DEFINITION. The two encoded things of the hardware (30_encoding): the host transaction and the phase
code; and `Instr`, one constructor per row of spec/opcode_table.json. -/

namespace Sys2Proof

/-- A host transaction as it is issued (R80): the 6-bit OP field, ADDR and DATA. ADDR carries meaning only
when S = 1 and DATA only when W = 1; "absent" fields are ignored. ADDR is a natural: MSG_AW is any width that
covers the message memory (R80, log entry 11). -/
structure HostReq where
  op : BitVec 6
  addr : Nat
  data : Word
  deriving DecidableEq, Repr

/-- An encoded instruction, in one of the two code spaces: a host transaction (R80) or a phase code (R84). -/
inductive Encoded where
  | request (r : HostReq)
  | phase (code : BitVec 4)
  deriving DecidableEq, Repr

/-- What the two agents can do in one step: the host's 14 transactions (R82) and what the core's 16 phase
codes select (R85). -/
inductive Instr where
  /-- RD_CTRL, R202 -/
  | rdCtrl
  /-- RD_STATUS, R203 -/
  | rdStatus
  /-- RD_LEN_LO, R209 -/
  | rdLenLo
  /-- RD_LEN_HI, R211 -/
  | rdLenHi
  /-- RD_RSVD of register index 4 + k, R213 -/
  | rdRsvd (k : BitVec 2)
  /-- RD_DIGEST of digest word j, R207 -/
  | rdDigest (j : BitVec 3)
  /-- WR_CTRL, R201 -/
  | wrCtrl (data : Word)
  /-- WR_STATUS, R204 -/
  | wrStatus (data : Word)
  /-- WR_LEN_LO, R210 -/
  | wrLenLo (data : Word)
  /-- WR_LEN_HI, R212 -/
  | wrLenHi (data : Word)
  /-- WR_RSVD of register index 4 + k, R214 -/
  | wrRsvd (k : BitVec 2) (data : Word)
  /-- WR_DIGEST of digest word j, R208 -/
  | wrDigest (j : BitVec 3) (data : Word)
  /-- RD_MSG, R206; idx is the ignored OP[3:0] -/
  | rdMsg (idx : BitVec 4) (addr : Nat)
  /-- WR_MSG, R205; idx is the ignored OP[3:0] -/
  | wrMsg (idx : BitVec 4) (addr : Nat) (data : Word)
  /-- IDLE, R191 -/
  | idle
  /-- INIT, R192 -/
  | init
  /-- FMT_ZERO, R103 -/
  | fmtZero
  /-- FMT_COPY, R104 -/
  | fmtCopy
  /-- FMT_PAD, R105 -/
  | fmtPad
  /-- FMT_LEN, R106 -/
  | fmtLen
  /-- UNPACK, R107 -/
  | unpack
  /-- EXPAND, R160 -/
  | expand
  /-- LOAD_WV, R170 -/
  | loadWv
  /-- ROUND, R172 -/
  | round
  /-- FOLD, R173 -/
  | fold
  /-- NEXT, R193 -/
  | next
  /-- FINAL, R175 -/
  | final
  /-- DONE, R194 -/
  | done
  /-- reserved phase 0xE, R195 -/
  | rsvdE
  /-- reserved phase 0xF, R195 -/
  | rsvdF
  deriving DecidableEq, Repr

end Sys2Proof
end

