-- ==== Sys2Proof/Machine/State.lean ====
section
/-! DEFINITION. The state of one core instance (10_state), as plain data, and the state after reset (70_reset R260). -/

namespace Sys2Proof.Machine

/-- The two agents that take steps (R20). -/
inductive Agent where
  | core
  | host
  deriving DecidableEq, Repr

/-- A model fault in the fault record (R231), with the information recorded. UNWRITTEN_MSG also says which agent
raised it, since R232 makes it a core fault or a host fault by that (log entry 6). -/
inductive FaultRec where
  /-- code 1, raised by INIT: the length LEN -/
  | msgOverrun (len : DWord)
  /-- code 2, raised by FMT_COPY (core) or RD_MSG (host): the lowest address read that is unwritten -/
  | unwrittenMsg (raiser : Agent) (addr : Nat)
  /-- code 3, raised by WR_MSG or RD_MSG: ADDR -/
  | msgRange (addr : Nat)
  /-- code 4, raised by RD_DIGEST: j -/
  | doutUnwritten (j : BitVec 3)
  /-- code 5, raised by core dispatch: the phase -/
  | rsvdPhase (phase : BitVec 4)
  deriving DecidableEq, Repr

/-- One choice of the environment: who takes the next step (R20, R64), and what the host or the reset line does. -/
inductive Turn where
  /-- the core is scheduled -/
  | core
  /-- the host issues a transaction (R80) -/
  | host (r : HostReq)
  /-- a reset event (R260) -/
  | reset
  deriving DecidableEq, Repr

/-- The state of one instance, every piece under the spec's own name (10_state). `msgCap` is the OPEN parameter
MSG_CAP (R12), `rdata` the response of the last read (R80), and `turns` the environment's choices still to come,
oldest first (the model's own field, log entry 1). -/
structure State where
  /-- Hash State (R21) -/
  H : Vector Word 8
  /-- Working Variables a..h (R22, R18) -/
  WV : Vector Word 8
  /-- Block buffer (R23) -/
  BLK : Vector Byte 64
  /-- Message Schedule (R24) -/
  W : Vector Word 64
  /-- latched length (R25) -/
  L : DWord
  /-- block count (R26) -/
  N : Nat
  /-- block index (R27) -/
  i : Nat
  /-- round counter (R28) -/
  t : Nat
  /-- sequencer phase (R29) -/
  phase : BitVec 4
  /-- the padding byte has been written in this run (R36) -/
  padInserted : Bool
  /-- the length field has been written in this run (R37) -/
  lenWritten : Bool
  /-- digest output buffer (R38) -/
  DOUT : Vector Byte 32
  /-- a FINAL has run since reset (R38, R231 code 4) -/
  doutWritten : Bool
  /-- host length register, low word (R33) -/
  LEN_LO : Word
  /-- host length register, high word (R33) -/
  LEN_HI : Word
  /-- message memory (R40): the bytes written since reset, addresses strictly rising -/
  MSG : List Host.Cell
  /-- fault record (R41): no repeats, oldest first -/
  faults : List FaultRec
  /-- MSG_CAP (R12); no step changes it -/
  msgCap : Nat
  /-- RDATA of the last read (R80); none before the first read and after a read that faulted (log entry 5) -/
  rdata : Option Word
  /-- the environment's choices still to come; with none left, every turn is the core's -/
  turns : List Turn
  deriving DecidableEq, Repr

/-- Why the machine stops for want of a meaning. Each is raised only in a state no run reaches, for which the
spec gives no array element to read or write (log entry 7). -/
inductive Fault where
  /-- EXPAND with t outside 16..63 (R160: "On entry 16 <= t <= 63"), which would use a W[t-16] or W[t] that does not
  exist. Safe. -/
  | expandIndex
  /-- ROUND with t above 63 (R172: "On entry 0 <= t <= 63"), which would read a W[t] and K[t] that do not exist. Safe. -/
  | roundIndex
  /-- FMT_PAD with padInserted = 0 and rem < 0 (R105: "0 <= rem <= 63 here"), which would write a BLK[rem] that does
  not exist. Safe. -/
  | padIndex
  deriving DecidableEq, Repr

/-- Why an instruction is refused. -/
inductive Refusal where
  /-- raised by an arm of `exec` whose instruction has no meaning yet; no arm raises it now. Safe. -/
  | notModelled (mnemonic : String)
  deriving DecidableEq, Repr

/-- The state right after reset of an instance whose message memory has `cap` bytes (R260): phase IDLE, LEN 0, the
record empty, no byte of MSG and no digest written. Where the spec says "unspecified" the register holds 0.
DESIGN CHOICE (log entries 2 and 3), unsafe. -/
def State.resetOf (cap : Nat) : State where
  H := Vector.replicate 8 0#32
  WV := Vector.replicate 8 0#32
  BLK := Vector.replicate 64 0#8
  W := Vector.replicate 64 0#32
  L := 0#64
  N := 0
  i := 0
  t := 0
  phase := 0x0#4
  padInserted := false
  lenWritten := false
  DOUT := Vector.replicate 32 0#8
  doutWritten := false
  LEN_LO := 0#32
  LEN_HI := 0#32
  MSG := []
  faults := []
  msgCap := cap
  rdata := none
  turns := []

/-- The state after reset, with the capacity of `Config.msgCap` and nothing yet asked by the environment. -/
def State.reset : State := State.resetOf Config.msgCap

end Sys2Proof.Machine
end

