-- ==== Sys2Proof/Machine/Ops.lean ====
section
/-! DEFINITION. The named operations: message memory (20_memory R50), the fault record and raising a fault
(60_exceptions R231, R232), the read response (30_encoding R80), phases (30_encoding R85) and reset (70_reset R260). -/

namespace Sys2Proof.Machine

/-! ## Phase codes (R85) -/

@[simp] abbrev Phase.idle : BitVec 4 := 0x0#4
@[simp] abbrev Phase.init : BitVec 4 := 0x1#4
@[simp] abbrev Phase.fmtZero : BitVec 4 := 0x2#4
@[simp] abbrev Phase.fmtCopy : BitVec 4 := 0x3#4
@[simp] abbrev Phase.fmtPad : BitVec 4 := 0x4#4
@[simp] abbrev Phase.fmtLen : BitVec 4 := 0x5#4
@[simp] abbrev Phase.unpack : BitVec 4 := 0x6#4
@[simp] abbrev Phase.expand : BitVec 4 := 0x7#4
@[simp] abbrev Phase.loadWv : BitVec 4 := 0x8#4
@[simp] abbrev Phase.round : BitVec 4 := 0x9#4
@[simp] abbrev Phase.fold : BitVec 4 := 0xA#4
@[simp] abbrev Phase.next : BitVec 4 := 0xB#4
@[simp] abbrev Phase.final : BitVec 4 := 0xC#4
@[simp] abbrev Phase.done : BitVec 4 := 0xD#4
@[simp] abbrev Phase.rsvdE : BitVec 4 := 0xE#4
@[simp] abbrev Phase.rsvdF : BitVec 4 := 0xF#4

/-! ## Message memory (R40, R50): a list of written bytes; an unlisted byte holds no value -/

/-- The canonical form: addresses strictly rising. An unlisted address reads as no value, so every listed byte
belongs in the list (log entry 19). -/
abbrev Mem.wf (m : List Host.Cell) : Prop := m.Pairwise fun c d => c.1 < d.1

/-- One byte, if it has been written since reset. -/
def Mem.read : List Host.Cell → Nat → Option Byte
  | [], _ => none
  | (a, b) :: m, x => if x = a then some b else Mem.read m x

/-- Store one byte. -/
def Mem.write : List Host.Cell → Nat → Byte → List Host.Cell
  | [], x, v => [(x, v)]
  | (a, b) :: m, x, v =>
    if x < a then (x, v) :: (a, b) :: m
    else if x = a then (a, v) :: m
    else (a, b) :: Mem.write m x v

/-- The byte MSG[a] (R50): none where the address does not exist (a >= MSG_CAP) and where nothing has been written
since reset. -/
def State.readMsg (s : State) (a : Nat) : Option Byte :=
  if a < s.msgCap then Mem.read s.MSG a else none

/-- MemWrite(a, 1, v) (R17). -/
def State.writeMsg (s : State) (a : Nat) (v : Byte) : State :=
  { s with MSG := Mem.write s.MSG a v }

/-- The lowest of the addresses base .. base+n-1 that holds no written byte (R234). -/
def State.lowestUnwritten (s : State) (base n : Nat) : Option Nat :=
  ((List.range n).map (base + ·)).find? fun a => (s.readMsg a).isNone

/-! ## The fault record (R231, R232) -/

/-- The number of the fault in R231's table. -/
def FaultRec.code : FaultRec → Nat
  | .msgOverrun _ => 1
  | .unwrittenMsg _ _ => 2
  | .msgRange _ => 3
  | .doutUnwritten _ => 4
  | .rsvdPhase _ => 5

/-- "A core fault is MSG_OVERRUN, UNWRITTEN_MSG raised by FMT_COPY, or RSVD_PHASE" (R232). -/
def FaultRec.isCore : FaultRec → Bool
  | .msgOverrun _ => true
  | .unwrittenMsg .core _ => true
  | .unwrittenMsg .host _ => false
  | .msgRange _ => false
  | .doutUnwritten _ => false
  | .rsvdPhase _ => true

/-- "the core has no further step until reset" (R232, R190): the record holds a core fault. -/
def State.coreStopped (s : State) : Bool := s.faults.any FaultRec.isCore

/-- The record with `f` in it; it is a set (R41). -/
def State.addFault (s : State) (f : FaultRec) : State :=
  { s with faults := if f ∈ s.faults then s.faults else s.faults ++ [f] }

/-- raise Fault (R17, R232): "the state is the state before the step, plus the record". The step completes, and the
stop of a core fault follows from the record (`State.coreStopped`). -/
def State.raise (s : State) (f : FaultRec) : Host.Outcome State Fault Refusal :=
  .next (s.addFault f)

/-! ## The response of a read (R80, R200) -/

/-- A read's RDATA. -/
def State.respond (s : State) (v : Word) : State := { s with rdata := some v }

/-- A read that faults: the record, and "No RDATA value is defined" (95_test_vectors V7; log entry 5). -/
def State.raiseRead (s : State) (f : FaultRec) : Host.Outcome State Fault Refusal :=
  .next { s.addFault f with rdata := none }

/-! ## Reset (R260) -/

/-- A reset event: every element at its reset value, for the same capacity; what the environment does next is not
the instance's and stays. -/
def State.resetEvent (s : State) : State := { State.resetOf s.msgCap with turns := s.turns }

end Sys2Proof.Machine
end

