-- ==== Sys2Proof/Machine/Operands.lean ====
section
/-! DEFINITION. Operand forms: fields of DATA, byte order (20_memory R53-R56), LEN, and the step-local lengths of the
padder (40_padder R104-R106, R109). -/

namespace Sys2Proof.Machine

/-- DATA[0], START (R31). -/
def startBit (data : Word) : Bool := data.getLsbD 0

/-- DATA[7:0] (R83). -/
def dataByte (data : Word) : Byte := data.extractLsb' 0 8

/-- zext_32 of a message byte (R83). -/
def zext32 (b : Byte) : Word := b.setWidth 32

/-- BE32(b0,b1,b2,b3): b0 is the most significant byte (R17, R53). -/
def be32 (b0 b1 b2 b3 : Byte) : Word := b0 ++ b1 ++ b2 ++ b3

/-- byte_k(x) = x[31-8k : 24-8k] (R17, R55). -/
def byteOf (x : Word) (k : Nat) : Byte := x.extractLsb' (24 - 8 * k) 8

/-- Byte k, most significant first, of a 64-bit value: lf[63-8k : 56-8k] (R54). -/
def byteOf64 (x : DWord) (k : Nat) : Byte := x.extractLsb' (56 - 8 * k) 8

/-- LEN = LEN_HI || LEN_LO (R33). -/
def State.LEN (s : State) : DWord := s.LEN_HI ++ s.LEN_LO

/-- rem = L - 64*i, "an integer and may be negative" (R15, R104). -/
def State.rem (s : State) : Int := (s.L.toNat : Int) - 64 * (s.i : Int)

/-- n = min(max(rem, 0), 64), "number of message bytes in this block" (R104). -/
def State.copyCount (s : State) : Nat := (min (max s.rem 0) 64).toNat

/-- lf = (8 * L) mod 2^64 (R106, R109). -/
def lengthField (l : DWord) : DWord := BitVec.ofNat 64 (8 * l.toNat)

/-- DIGESTj = BE32(DOUT[4j], DOUT[4j+1], DOUT[4j+2], DOUT[4j+3]) (R34, R56). -/
def digestWord (dout : Vector Byte 32) (j : BitVec 3) : Word :=
  have hj : j.toNat < 8 := j.isLt
  be32 (dout[4 * j.toNat]'(by omega)) (dout[4 * j.toNat + 1]'(by omega))
    (dout[4 * j.toNat + 2]'(by omega)) (dout[4 * j.toNat + 3]'(by omega))

end Sys2Proof.Machine
end

