-- ==== Sys2Proof/Machine/Compress.lean ====
section
/-! DEFINITION. The round compressor, fold and finalization (43_compress R170-R175). -/

namespace Sys2Proof.Machine

/-- LOAD_WV (R170). -/
def execLoadWv (s : State) : Host.Outcome State Fault Refusal :=
  .next { s with WV := s.H, t := 0, phase := Phase.round }

/-- T1 = h + S1 + Ch + K[t] + W[t] (R171). -/
def roundT1 (v : Vector Word 8) (k w : Word) : Word :=
  v[7] + bigSigma1 v[4] + ch v[4] v[5] v[6] + k + w

/-- T2 = S0 + Maj (R171). -/
def roundT2 (v : Vector Word 8) : Word := bigSigma0 v[0] + maj v[0] v[1] v[2]

/-- The parallel assignment of a round: every right-hand side is the old a..h (R172). -/
def roundStep (v : Vector Word 8) (k w : Word) : Vector Word 8 :=
  #v[roundT1 v k w + roundT2 v, v[0], v[1], v[2], v[3] + roundT1 v k w, v[4], v[5], v[6]]

/-- ROUND (R172): the loop leaves for FOLD when tnext = 64. -/
def execRound (s : State) : Host.Outcome State Fault Refusal :=
  if h : s.t < 64 then
    .next { s with
      WV := roundStep s.WV kRom[s.t] s.W[s.t]
      t := s.t + 1
      phase := if s.t + 1 = 64 then Phase.fold else Phase.round }
  else .fault .roundIndex

/-- H[j] + WV[j] for j = 0..7, mod 2^32 (R173). -/
def foldState (h v : Vector Word 8) : Vector Word 8 := Vector.ofFn fun j => h[j] + v[j]

/-- FOLD (R173). -/
def execFold (s : State) : Host.Outcome State Fault Refusal :=
  .next { s with H := foldState s.H s.WV, phase := Phase.next }

/-- The big-endian bytes of the hash state: byte 4j + k is byte_k(H[j]) (R55). -/
def digestBytes (h : Vector Word 8) : Vector Byte 32 :=
  Vector.ofFn fun p => byteOf (h[p.val / 4]'(by omega)) (p.val % 4)

/-- FINAL (R175). -/
def execFinal (s : State) : Host.Outcome State Fault Refusal :=
  .next { s with DOUT := digestBytes s.H, doutWritten := true, phase := Phase.done }

end Sys2Proof.Machine
end

