-- ==== Sys2Proof/Machine/Flags.lean ====
section
/-! DEFINITION. The status bits computed from phase (10_state R32) and the tests that set the two padding flags
(40_padder R105, R106). No arithmetic sets any flag (10_state R45). -/

namespace Sys2Proof.Machine

/-- STATUS.BUSY: "phase is not in {IDLE, DONE}" (R32). -/
def State.busy (s : State) : Bool := !(s.phase == Phase.idle || s.phase == Phase.done)

/-- STATUS.DONE: "phase = DONE" (R32). -/
def State.isDone (s : State) : Bool := s.phase == Phase.done

/-- The STATUS word: bit 0 BUSY, bit 1 DONE, the rest 0 (R32, R203). -/
def State.status (s : State) : Word :=
  ((BitVec.ofBool s.isDone).setWidth 32 <<< 1) ||| (BitVec.ofBool s.busy).setWidth 32

/-- FMT_PAD inserts the padding byte: "padInserted = 0 and rem < 64" (R105). -/
def State.padNow (s : State) : Bool := !s.padInserted && decide (s.rem < 64)

/-- FMT_LEN inserts the length field: "padInserted = 1 and lenWritten = 0 and rem <= 55" (R106). -/
def State.lenNow (s : State) : Bool := s.padInserted && !s.lenWritten && decide (s.rem ≤ 55)

end Sys2Proof.Machine
end

