-- ==== Sys2Proof/Machine/Padder.lean ====
section
/-! DEFINITION. The padder / parser (40_padder R101-R107). -/

namespace Sys2Proof.Machine

/-- blockCount(L) = floor((L + 8) / 64) + 1, without wrap-around (R101). -/
def blockCount (len : Nat) : Nat := (len + 8) / 64 + 1

/-- FMT_ZERO (R103). -/
def execFmtZero (s : State) : Host.Outcome State Fault Refusal :=
  .next { s with BLK := Vector.replicate 64 0x00#8, phase := Phase.fmtCopy }

/-- The block with its first n bytes read from MSG[base ..]; a byte that cannot be read leaves the block's own (R104;
FMT_COPY faults before that happens). -/
def copyBytes (s : State) (base n : Nat) : Vector Byte 64 :=
  Vector.ofFn fun j => if j.val < n then (s.readMsg (base + j.val)).getD s.BLK[j] else s.BLK[j]

/-- FMT_COPY (R104): n message bytes in one step, or UNWRITTEN_MSG at the lowest unwritten address (R234) and no
other write. -/
def execFmtCopy (s : State) : Host.Outcome State Fault Refusal :=
  match s.lowestUnwritten (64 * s.i) s.copyCount with
  | some a => s.raise (.unwrittenMsg .core a)
  | none => .next { s with BLK := copyBytes s (64 * s.i) s.copyCount, phase := Phase.fmtPad }

/-- FMT_PAD (R105): the byte 0x80 right after the message bytes, once a run. -/
def execFmtPad (s : State) : Host.Outcome State Fault Refusal :=
  if s.padNow then
    if h : 0 ≤ s.rem ∧ s.rem < 64 then
      .next { s with
        BLK := s.BLK.set s.rem.toNat 0x80#8 (by omega)
        padInserted := true
        phase := Phase.fmtLen }
    else .fault .padIndex
  else .next { s with phase := Phase.fmtLen }

/-- The block with the 64-bit length field in bytes 56..63, most significant byte first (R54, R106). -/
def putLength (blk : Vector Byte 64) (lf : DWord) : Vector Byte 64 :=
  Vector.ofFn fun j => if 56 ≤ j.val then byteOf64 lf (j.val - 56) else blk[j]

/-- FMT_LEN (R106). -/
def execFmtLen (s : State) : Host.Outcome State Fault Refusal :=
  if s.lenNow then
    .next { s with
      BLK := putLength s.BLK (lengthField s.L)
      lenWritten := true
      phase := Phase.unpack }
  else .next { s with phase := Phase.unpack }

/-- Word j of a block, big-endian (R53). -/
def blockWord (blk : Vector Byte 64) (j : Nat) (h : j < 16) : Word :=
  be32 (blk[4 * j]'(by omega)) (blk[4 * j + 1]'(by omega)) (blk[4 * j + 2]'(by omega)) (blk[4 * j + 3]'(by omega))

/-- W with its first 16 words unpacked from a block (R107). -/
def unpackInto (blk : Vector Byte 64) (w : Vector Word 64) : Vector Word 64 :=
  Vector.ofFn fun j => if h : j.val < 16 then blockWord blk j.val h else w[j]

/-- UNPACK (R107). -/
def execUnpack (s : State) : Host.Outcome State Fault Refusal :=
  .next { s with W := unpackInto s.BLK s.W, t := 16, phase := Phase.expand }

end Sys2Proof.Machine
end

