-- ==== Sys2Proof/Machine/Control.lean ====
section
/-! DEFINITION. The sequencer's own phases: IDLE, INIT, NEXT, DONE and the reserved codes (44_control R191-R195). -/

namespace Sys2Proof.Machine

/-- IDLE (R191): "the core has no step", so a turn of the core changes nothing. -/
def execIdle (s : State) : Host.Outcome State Fault Refusal := .next s

/-- INIT (R192): MSG_OVERRUN when LEN > MSG_CAP, else a new run. LEN is read here and not at START, so a LEN write between
START and this step reaches the run, though BUSY is already 1: R192 and decision D7 give that, R33, R83, R210 and R266 say
otherwise. DESIGN CHOICE (log entry 20), unsafe in that window. -/
def execInit (s : State) : Host.Outcome State Fault Refusal :=
  if s.msgCap < s.LEN.toNat then s.raise (.msgOverrun s.LEN)
  else
    .next { s with
      L := s.LEN
      H := ivRom
      N := blockCount s.LEN.toNat
      i := 0
      padInserted := false
      lenWritten := false
      phase := Phase.fmtZero }

/-- NEXT (R193). -/
def execNext (s : State) : Host.Outcome State Fault Refusal :=
  .next { s with
    i := s.i + 1
    phase := if s.i + 1 < s.N then Phase.fmtZero else Phase.final }

/-- DONE (R194): the core has no step. -/
def execDone (s : State) : Host.Outcome State Fault Refusal := .next s

/-- Reserved phase 0xE (R195): "The model records RSVD_PHASE and stops the core". -/
def execRsvdE (s : State) : Host.Outcome State Fault Refusal := s.raise (.rsvdPhase Phase.rsvdE)

/-- Reserved phase 0xF (R195). -/
def execRsvdF (s : State) : Host.Outcome State Fault Refusal := s.raise (.rsvdPhase Phase.rsvdF)

end Sys2Proof.Machine
end

