-- ==== Sys2Proof/Machine/HostMsg.lean ====
section
/-! DEFINITION. The host's message-memory transactions (44_control R205, R206). OP[3:0] is ignored (R86). -/

namespace Sys2Proof.Machine

/-- RD_MSG (R206); R234: "RD_MSG checks MSG_RANGE first and UNWRITTEN_MSG second". -/
def execRdMsg (_idx : BitVec 4) (addr : Nat) (s : State) : Host.Outcome State Fault Refusal :=
  if s.msgCap ≤ addr then s.raiseRead (.msgRange addr)
  else
    match s.readMsg addr with
    | none => s.raiseRead (.unwrittenMsg .host addr)
    | some b => .next (s.respond (zext32 b))

/-- WR_MSG (R205): MSG[ADDR] <- DATA[7:0], accepted whatever the phase. -/
def execWrMsg (_idx : BitVec 4) (addr : Nat) (data : Word) (s : State) : Host.Outcome State Fault Refusal :=
  if s.msgCap ≤ addr then s.raise (.msgRange addr)
  else .next (s.writeMsg addr (dataByte data))

end Sys2Proof.Machine
end

