-- ==== Sys2Proof/Machine/HostRegs.lean ====
section
/-! DEFINITION. The host's register transactions (44_control R201-R204, R207-R214). -/

namespace Sys2Proof.Machine

/-- RD_CTRL (R202): "CTRL holds no state". -/
def execRdCtrl (s : State) : Host.Outcome State Fault Refusal := .next (s.respond 0#32)

/-- RD_STATUS (R203). -/
def execRdStatus (s : State) : Host.Outcome State Fault Refusal := .next (s.respond s.status)

/-- RD_LEN_LO (R209): "the host register, not the latched L". -/
def execRdLenLo (s : State) : Host.Outcome State Fault Refusal := .next (s.respond s.LEN_LO)

/-- RD_LEN_HI (R211). -/
def execRdLenHi (s : State) : Host.Outcome State Fault Refusal := .next (s.respond s.LEN_HI)

/-- RD_RSVD (R213): a reserved index reads 0. -/
def execRdRsvd (_k : BitVec 2) (s : State) : Host.Outcome State Fault Refusal := .next (s.respond 0#32)

/-- RD_DIGEST (R207): DOUT_UNWRITTEN before the first FINAL since reset. -/
def execRdDigest (j : BitVec 3) (s : State) : Host.Outcome State Fault Refusal :=
  if s.doutWritten then .next (s.respond (digestWord s.DOUT j))
  else s.raiseRead (.doutUnwritten j)

/-- WR_CTRL (R201): START from IDLE or DONE begins a run; "otherwise no effect; DATA[31:1] ignored". -/
def execWrCtrl (data : Word) (s : State) : Host.Outcome State Fault Refusal :=
  if startBit data && !s.busy then .next { s with phase := Phase.init } else .next s

/-- WR_STATUS (R204): no effect. -/
def execWrStatus (_data : Word) (s : State) : Host.Outcome State Fault Refusal := .next s

/-- WR_LEN_LO (R210). While phase = INIT the write still reaches the run (log entry 20). -/
def execWrLenLo (data : Word) (s : State) : Host.Outcome State Fault Refusal :=
  .next { s with LEN_LO := data }

/-- WR_LEN_HI (R212). While phase = INIT the write still reaches the run (log entry 20). -/
def execWrLenHi (data : Word) (s : State) : Host.Outcome State Fault Refusal :=
  .next { s with LEN_HI := data }

/-- WR_RSVD (R214): no effect. -/
def execWrRsvd (_k : BitVec 2) (_data : Word) (s : State) : Host.Outcome State Fault Refusal := .next s

/-- WR_DIGEST (R208): no effect, "DOUT cannot be written by the host". -/
def execWrDigest (_j : BitVec 3) (_data : Word) (s : State) : Host.Outcome State Fault Refusal := .next s

end Sys2Proof.Machine
end

