-- ==== Sys2Proof/Machine/Schedule.lean ====
section
/-! DEFINITION. Message schedule expansion (42_schedule R160). -/

namespace Sys2Proof.Machine

/-- σ1(W[t-2]) + W[t-7] + σ0(W[t-15]) + W[t-16], mod 2^32 (R160). -/
def scheduleWord (w : Vector Word 64) (t : Nat) (h : 16 ≤ t ∧ t < 64) : Word :=
  sigma1 (w[t - 2]'(by omega)) + w[t - 7]'(by omega) + sigma0 (w[t - 15]'(by omega)) + w[t - 16]'(by omega)

/-- EXPAND (R160): one schedule word; the loop leaves for LOAD_WV when tnext = 64. -/
def execExpand (s : State) : Host.Outcome State Fault Refusal :=
  if h : 16 ≤ s.t ∧ s.t < 64 then
    .next { s with
      W := s.W.set s.t (scheduleWord s.W s.t h) h.2
      t := s.t + 1
      phase := if s.t + 1 = 64 then Phase.loadWv else Phase.expand }
  else .fault .expandIndex

end Sys2Proof.Machine
end

