-- ==== Sys2Proof/Machine/Dispatch.lean ====
section
/-! DEFINITION. One arm per instruction: the host's transactions (44_control R200) and the core's step dispatch (R190). -/

namespace Sys2Proof.Machine

/-- The meaning of an instruction. -/
def exec (i : Instr) (s : State) : Host.Outcome State Fault Refusal :=
  match i with
  | .rdCtrl => Sys2Proof.Machine.execRdCtrl s
  | .rdStatus => Sys2Proof.Machine.execRdStatus s
  | .rdLenLo => Sys2Proof.Machine.execRdLenLo s
  | .rdLenHi => Sys2Proof.Machine.execRdLenHi s
  | .rdRsvd k => Sys2Proof.Machine.execRdRsvd k s
  | .rdDigest j => Sys2Proof.Machine.execRdDigest j s
  | .wrCtrl data => Sys2Proof.Machine.execWrCtrl data s
  | .wrStatus data => Sys2Proof.Machine.execWrStatus data s
  | .wrLenLo data => Sys2Proof.Machine.execWrLenLo data s
  | .wrLenHi data => Sys2Proof.Machine.execWrLenHi data s
  | .wrRsvd k data => Sys2Proof.Machine.execWrRsvd k data s
  | .wrDigest j data => Sys2Proof.Machine.execWrDigest j data s
  | .rdMsg idx addr => Sys2Proof.Machine.execRdMsg idx addr s
  | .wrMsg idx addr data => Sys2Proof.Machine.execWrMsg idx addr data s
  | .idle => Sys2Proof.Machine.execIdle s
  | .init => Sys2Proof.Machine.execInit s
  | .fmtZero => Sys2Proof.Machine.execFmtZero s
  | .fmtCopy => Sys2Proof.Machine.execFmtCopy s
  | .fmtPad => Sys2Proof.Machine.execFmtPad s
  | .fmtLen => Sys2Proof.Machine.execFmtLen s
  | .unpack => Sys2Proof.Machine.execUnpack s
  | .expand => Sys2Proof.Machine.execExpand s
  | .loadWv => Sys2Proof.Machine.execLoadWv s
  | .round => Sys2Proof.Machine.execRound s
  | .fold => Sys2Proof.Machine.execFold s
  | .next => Sys2Proof.Machine.execNext s
  | .final => Sys2Proof.Machine.execFinal s
  | .done => Sys2Proof.Machine.execDone s
  | .rsvdE => Sys2Proof.Machine.execRsvdE s
  | .rsvdF => Sys2Proof.Machine.execRsvdF s

end Sys2Proof.Machine
end

