-- ==== Sys2Proof/WellFormed.lean ====
section
/-! DEFINITION. What can be written on the wires of a transaction whose address field has `aw` bits (R80:
MSG_AW, any width; log entry 11). -/

namespace Sys2Proof

/-- An instruction that MSG_AW = `aw` can express: its message address fits the ADDR field. Every other operand
fits its field by its type. -/
def Instr.wellFormed (aw : Nat) : Instr → Bool
  | .rdMsg _ addr => addr < 2 ^ aw
  | .wrMsg _ addr _ => addr < 2 ^ aw
  | _ => true

/-- A transaction in the form the assembler writes (R80, R89): ADDR fits its field, and a field the format leaves
absent (ADDR when S = 0, DATA when W = 0) is written as zero. -/
def HostReq.wellFormed (aw : Nat) (r : HostReq) : Bool :=
  (if r.op.getLsbD 5 then r.addr < 2 ^ aw else r.addr = 0) && (r.op.getLsbD 4 || r.data = 0)

/-- Every phase code is well-formed: R85 gives all 16 a row. -/
def Encoded.wellFormed (aw : Nat) : Encoded → Bool
  | .request r => r.wellFormed aw
  | .phase _ => true

end Sys2Proof
end

