-- ==== Sys2Proof/Decode.lean ====
section
/-! DEFINITION. Decoding and encoding (30_encoding R80-R88): total, every OP value and every phase code has its
row; and the reading of a bare table word, which rejects by name. -/

namespace Sys2Proof

/-- OP[5] = S, "address space: 0 = REG, 1 = MSG" (R80). -/
def HostReq.space (r : HostReq) : Bool := r.op.getLsbD 5

/-- OP[4] = W, "direction: 1 = write, 0 = read" (R80). -/
def HostReq.write (r : HostReq) : Bool := r.op.getLsbD 4

/-- OP[3:0] = IDX (R80). -/
def HostReq.idx (r : HostReq) : BitVec 4 := r.op.extractLsb' 0 4

/-- A register read, OP 0x00..0x0F (R82). -/
def decodeRegRead (idx : BitVec 4) : Instr :=
  if idx = 0x0#4 then .rdCtrl
  else if idx = 0x1#4 then .rdStatus
  else if idx = 0x2#4 then .rdLenLo
  else if idx = 0x3#4 then .rdLenHi
  else if idx < 0x8#4 then .rdRsvd (idx.extractLsb' 0 2)
  else .rdDigest (idx.extractLsb' 0 3)

/-- A register write, OP 0x10..0x1F (R82). -/
def decodeRegWrite (idx : BitVec 4) (data : Word) : Instr :=
  if idx = 0x0#4 then .wrCtrl data
  else if idx = 0x1#4 then .wrStatus data
  else if idx = 0x2#4 then .wrLenLo data
  else if idx = 0x3#4 then .wrLenHi data
  else if idx < 0x8#4 then .wrRsvd (idx.extractLsb' 0 2) data
  else .wrDigest (idx.extractLsb' 0 3) data

/-- The host opcode map (R81, R82): S and W select the group and, in the register space, IDX the register. -/
def decodeRequest (r : HostReq) : Instr :=
  match r.space, r.write with
  | false, false => decodeRegRead r.idx
  | false, true => decodeRegWrite r.idx r.data
  | true, false => .rdMsg r.idx r.addr
  | true, true => .wrMsg r.idx r.addr r.data

/-- The phase code map (R85). -/
def decodePhase (code : BitVec 4) : Instr :=
  if code = 0x0#4 then .idle
  else if code = 0x1#4 then .init
  else if code = 0x2#4 then .fmtZero
  else if code = 0x3#4 then .fmtCopy
  else if code = 0x4#4 then .fmtPad
  else if code = 0x5#4 then .fmtLen
  else if code = 0x6#4 then .unpack
  else if code = 0x7#4 then .expand
  else if code = 0x8#4 then .loadWv
  else if code = 0x9#4 then .round
  else if code = 0xA#4 then .fold
  else if code = 0xB#4 then .next
  else if code = 0xC#4 then .final
  else if code = 0xD#4 then .done
  else if code = 0xE#4 then .rsvdE
  else .rsvdF

/-- The instruction an encoded form stands for; "No host encoding is illegal" (R86), and every phase code has a
row (R85). -/
def decode : Encoded → Instr
  | .request r => decodeRequest r
  | .phase code => decodePhase code

/-- The encoded form of an instruction on a transaction whose ADDR field has `aw` bits (R80-R82, R85, R89): a field
the format leaves absent is zero, and the ADDR wires carry the low `aw` bits of the address. -/
def encode (aw : Nat) : Instr → Encoded
  | .rdCtrl => .request ⟨0x00#6, 0, 0#32⟩
  | .rdStatus => .request ⟨0x01#6, 0, 0#32⟩
  | .rdLenLo => .request ⟨0x02#6, 0, 0#32⟩
  | .rdLenHi => .request ⟨0x03#6, 0, 0#32⟩
  | .rdRsvd k => .request ⟨0b0001#4 ++ k, 0, 0#32⟩
  | .rdDigest j => .request ⟨0b001#3 ++ j, 0, 0#32⟩
  | .wrCtrl data => .request ⟨0x10#6, 0, data⟩
  | .wrStatus data => .request ⟨0x11#6, 0, data⟩
  | .wrLenLo data => .request ⟨0x12#6, 0, data⟩
  | .wrLenHi data => .request ⟨0x13#6, 0, data⟩
  | .wrRsvd k data => .request ⟨0b0101#4 ++ k, 0, data⟩
  | .wrDigest j data => .request ⟨0b011#3 ++ j, 0, data⟩
  | .rdMsg idx addr => .request ⟨0b10#2 ++ idx, addr % 2 ^ aw, 0#32⟩
  | .wrMsg idx addr data => .request ⟨0b11#2 ++ idx, addr % 2 ^ aw, data⟩
  | .idle => .phase 0x0#4
  | .init => .phase 0x1#4
  | .fmtZero => .phase 0x2#4
  | .fmtCopy => .phase 0x3#4
  | .fmtPad => .phase 0x4#4
  | .fmtLen => .phase 0x5#4
  | .unpack => .phase 0x6#4
  | .expand => .phase 0x7#4
  | .loadWv => .phase 0x8#4
  | .round => .phase 0x9#4
  | .fold => .phase 0xA#4
  | .next => .phase 0xB#4
  | .final => .phase 0xC#4
  | .done => .phase 0xD#4
  | .rsvdE => .phase 0xE#4
  | .rsvdF => .phase 0xF#4

/-- A row of the host opcode map (R82): "A decoder matches `(OP & mask) == match`". -/
structure OpRow where
  pattern : BitVec 6
  mask : BitVec 6
  deriving DecidableEq, Repr

/-- The match of R82. -/
def OpRow.hits (row : OpRow) (op : BitVec 6) : Bool := op &&& row.mask == row.pattern

/-- The OP match and OP mask columns of R82, in the table's order. -/
def hostRows : List OpRow :=
  [⟨0x00#6, 0x3F#6⟩, ⟨0x01#6, 0x3F#6⟩, ⟨0x02#6, 0x3F#6⟩, ⟨0x03#6, 0x3F#6⟩, ⟨0x04#6, 0x3C#6⟩,
   ⟨0x08#6, 0x38#6⟩, ⟨0x10#6, 0x3F#6⟩, ⟨0x11#6, 0x3F#6⟩, ⟨0x12#6, 0x3F#6⟩, ⟨0x13#6, 0x3F#6⟩,
   ⟨0x14#6, 0x3C#6⟩, ⟨0x18#6, 0x38#6⟩, ⟨0x20#6, 0x30#6⟩, ⟨0x30#6, 0x30#6⟩]

/-- The place of an instruction's row in R82's table; none for a phase row. -/
def Instr.hostRow : Instr → Option Nat
  | .rdCtrl => some 0
  | .rdStatus => some 1
  | .rdLenLo => some 2
  | .rdLenHi => some 3
  | .rdRsvd _ => some 4
  | .rdDigest _ => some 5
  | .wrCtrl _ => some 6
  | .wrStatus _ => some 7
  | .wrLenLo _ => some 8
  | .wrLenHi _ => some 9
  | .wrRsvd _ _ => some 10
  | .wrDigest _ _ => some 11
  | .rdMsg _ _ => some 12
  | .wrMsg _ _ _ => some 13
  | .idle | .init | .fmtZero | .fmtCopy | .fmtPad | .fmtLen | .unpack | .expand | .loadWv | .round
  | .fold | .next | .final | .done | .rsvdE | .rsvdF => none

/-- An instruction of the core, that is a micro-operation (R85). -/
def Instr.isCore (i : Instr) : Bool := i.hostRow.isNone

/-- A host read (R80: W = 0). -/
def Instr.isRead : Instr → Bool
  | .rdCtrl | .rdStatus | .rdLenLo | .rdLenHi | .rdRsvd _ | .rdDigest _ | .rdMsg _ _ => true
  | .wrCtrl _ | .wrStatus _ | .wrLenLo _ | .wrLenHi _ | .wrRsvd _ _ | .wrDigest _ _ | .wrMsg _ _ _ => false
  | .idle | .init | .fmtZero | .fmtCopy | .fmtPad | .fmtLen | .unpack | .expand | .loadWv | .round
  | .fold | .next | .final | .done | .rsvdE | .rsvdF => false

/-- Why a bare table word is no encoded form. -/
inductive TableReject where
  /-- the word has bits above the 6 of OP (or above the 4 of a phase code): safe, nothing is decoded -/
  | bitsAboveTheCode
  deriving DecidableEq, Repr

/-- The encoded form that a bare word of spec/opcode_table.json stands for, its operand words zero. The table numbers
two separate code spaces from bit 0: 4-bit phase codes and 6-bit OP values. A width of at most 4 bits is a
phase code and one of 5 to 7 bits an OP. In a whole byte the two cannot be told apart below 0x10: such a byte
is read as the phase code, and one of 0x10..0x3F as the OP. DESIGN CHOICE (log entry 9), safe: no rule of the machine
reads a bare word, and `decode` never confuses the spaces. -/
def readTableWord (nbits w : Nat) : Except TableReject Encoded :=
  if w < 16 ∧ (nbits ≤ 4 ∨ 8 ≤ nbits) then .ok (.phase (BitVec.ofNat 4 w))
  else if w < 64 ∧ 4 < nbits then .ok (.request ⟨BitVec.ofNat 6 w, 0, 0#32⟩)
  else .error .bitsAboveTheCode

/-- The instruction a bare table word decodes to (the host's probe). -/
def decodeTableWord (nbits w : Nat) : Option Instr :=
  match readTableWord nbits w with
  | .ok e => some (decode e)
  | .error _ => none

end Sys2Proof
end

