-- ==== Sys2Proof/Machine/Fetch.lean ====
section
/-! DEFINITION. Which agent moves next and with which instruction: the turn at the head of `State.turns`, and for the
core the phase register (44_control R190, 20_memory R64; log entries 1 and 18). -/

namespace Sys2Proof.Machine

/-- What a step is to do: run an instruction in a state, or only move to a state (a reset; a turn of a stopped core). -/
inductive Fetched where
  | instr (i : Instr) (s : State)
  | only (s : State)
  deriving DecidableEq, Repr

/-- A turn of the core: nothing once it is stopped (R190, R232), else the micro-operation its phase selects (R84). -/
def fetchCore (s : State) : Fetched :=
  if s.coreStopped then .only s else .instr (decode (.phase s.phase)) s

/-- Take the next turn off the tape. With no turn left the host asks nothing more and the core is scheduled (R267). -/
def fetch (s : State) : Fetched :=
  match s.turns with
  | [] => fetchCore s
  | .core :: ts => fetchCore { s with turns := ts }
  | .host r :: ts => .instr (decode (.request r)) { s with turns := ts }
  | .reset :: ts => .only ({ s with turns := ts } : State).resetEvent

/-- The round counter for a core placed at a phase code. The program counter is the triple (phase, i, t) (R44), and a
position in EXPAND or ROUND has t in 16..63 or 0..63 (R160, R172): t is kept where it is such a position. -/
def placedCounter (code : BitVec 4) (t : Nat) : Nat :=
  if code = Phase.expand then (if 16 ≤ t ∧ t < 64 then t else 16)
  else if code = Phase.round then (if t < 64 then t else 0)
  else t

/-- `s` with an encoded instruction where the next step fetches (log entry 10): a transaction as the next turn; a phase
code in the phase register, with a core turn next and no core fault in the record, which would stop the core. -/
def State.place (s : State) : Encoded → State
  | .request r => { s with turns := .host r :: s.turns }
  | .phase code =>
    { s with
      phase := code
      t := placedCounter code s.t
      faults := s.faults.filter fun f => !f.isCore
      turns := .core :: s.turns }

/-- `State.place` of a bare table word; a word that is no encoded form changes nothing. -/
def State.placeTableWord (s : State) (nbits w : Nat) : State :=
  match readTableWord nbits w with
  | .ok e => s.place e
  | .error _ => s

end Sys2Proof.Machine
end

