-- ==== Sys2Proof/Machine/Step.lean ====
section
/-! DEFINITION. One step of the interleaving (20_memory R64): one host transaction, one core micro-operation, or a reset. -/

namespace Sys2Proof.Machine

/-- One atomic step (R60, R64). -/
def step (s : State) : Host.Outcome State Fault Refusal :=
  match fetch s with
  | .instr i s' => exec i s'
  | .only s' => .next s'

/-- `s` with the table word `w` where `step` fetches its next instruction (the host's probe). -/
def State.withFetchWord (s : State) (nbits w : Nat) : State := s.placeTableWord nbits w

end Sys2Proof.Machine
end

