-- ==== Sys2Proof/Machine/Digest.lean ====
section
/-! DEFINITION. SHA-256 as a function of the message alone: the padded message (40_padder R100) and the composition of
43_compress R176. No step of the machine uses it; statements compare the machine with it. -/

namespace Sys2Proof.Machine

/-- z = (55 - L) mod 64, taken in 0..63 (R100). -/
def zeroCount (len : Nat) : Nat := ((55 - (len : Int)) % 64).toNat

/-- BE64 of a value, as 8 bytes, most significant first (R17). -/
def be64Bytes (x : DWord) : List Byte := (List.range 8).map (byteOf64 x)

/-- P(M) = M || 0x80 || 0x00 * z || BE64(8L mod 2^64) (R100). -/
def padded (msg : List Byte) : List Byte :=
  msg ++ 0x80#8 :: (List.replicate (zeroCount msg.length) 0x00#8
    ++ be64Bytes (BitVec.ofNat 64 (8 * msg.length)))

/-- Bytes 64i .. 64i+63 of a byte string (R102). -/
def blockAt (p : List Byte) (i : Nat) : Vector Byte 64 :=
  Vector.ofFn fun j => p.getD (64 * i + j.val) 0x00#8

/-- W[t] <- rule R160, where there is such a word. -/
def expandAt (w : Vector Word 64) (t : Nat) : Vector Word 64 :=
  if h : 16 ≤ t ∧ t < 64 then w.set t (scheduleWord w t h) h.2 else w

/-- W[0..15] from the block, W[16..63] by rule R160 (R176). -/
def messageSchedule (blk : Vector Byte 64) : Vector Word 64 :=
  (List.range' 16 48).foldl expandAt (unpackInto blk (Vector.replicate 64 0#32))

/-- Round t of rule R172, where there is such a round. -/
def roundAt (w : Vector Word 64) (v : Vector Word 8) (t : Nat) : Vector Word 8 :=
  if h : t < 64 then roundStep v kRom[t] w[t] else v

/-- "(a..h) <- H; 64 rounds by rule R172; H <- H + (a..h)" for one block (R176). -/
def compressBlock (h : Vector Word 8) (blk : Vector Byte 64) : Vector Word 8 :=
  foldState h ((List.range 64).foldl (roundAt (messageSchedule blk)) h)

/-- The hash state after blocks 0 .. n-1 (R176). -/
def hashBlocks (msg : List Byte) (n : Nat) : Vector Word 8 :=
  (List.range n).foldl (fun h i => compressBlock h (blockAt (padded msg) i)) ivRom

/-- SHA256(M) (R176). -/
def sha256 (msg : List Byte) : Vector Byte 32 := digestBytes (hashBlocks msg (blockCount msg.length))

end Sys2Proof.Machine
end

