-- ==== Sys2Proof/Safety.lean ====
section
/-! DEFINITION. What a good state is: the invariant of every run (10_state R43, R44; 40_padder R108), and the words the
statements use for frames, recorded faults and messages. -/

namespace Sys2Proof.Machine

/-! ## The invariant -/

/-- The message memory keeps its canonical form, and every written byte has an address below MSG_CAP (R50). -/
abbrev State.MessageOk (s : State) : Prop := Mem.wf s.MSG ∧ ∀ c ∈ s.MSG, c.1 < s.msgCap

/-- "t never exceeds 64. i never exceeds N" (R44), and N is within its bound (R26, R101). Right after
reset, where the spec leaves all three unspecified, this holds by the model's zeros (log entries 2 and 17). -/
abbrev State.CountersOk (s : State) : Prop := s.t ≤ 64 ∧ s.i ≤ s.N ∧ s.N ≤ 2 ^ 58 + 1

/-- A run in progress works on a length that fits the memory, with the block count of that length (R192, R101). -/
abbrev State.RunOk (s : State) : Prop := s.L.toNat ≤ s.msgCap ∧ s.N = blockCount s.L.toNat

/-- Before the block's padding step: the padding byte is in an earlier block exactly when the message ended there, and
the length field is not written yet (R108). -/
abbrev State.BeforePad (s : State) : Prop :=
  s.RunOk ∧ s.i < s.N ∧ s.padInserted = decide (s.L.toNat / 64 < s.i) ∧ s.lenWritten = false

/-- Between the block's padding step and its length step (R108). -/
abbrev State.AfterPad (s : State) : Prop :=
  s.RunOk ∧ s.i < s.N ∧ s.padInserted = decide (s.L.toNat / 64 ≤ s.i) ∧ s.lenWritten = false

/-- Once the block is formatted: "the length field is written in block N - 1 exactly" (R108). -/
abbrev State.Formatted (s : State) : Prop :=
  s.RunOk ∧ s.i < s.N ∧ s.padInserted = decide (s.L.toNat / 64 ≤ s.i) ∧ s.lenWritten = decide (s.i + 1 = s.N)

/-- All blocks done: "When FINAL starts, i = N" (R193). -/
abbrev State.AllBlocksDone (s : State) : Prop :=
  s.RunOk ∧ s.i = s.N ∧ s.padInserted = true ∧ s.lenWritten = true

/-- What the position (phase, i, t) says of the run's registers. -/
abbrev State.PositionOk (s : State) : Prop :=
  (s.phase ∈ [Phase.fmtZero, Phase.fmtCopy, Phase.fmtPad] → s.BeforePad) ∧
  (s.phase = Phase.fmtLen → s.AfterPad) ∧
  (s.phase ∈ [Phase.unpack, Phase.expand, Phase.loadWv, Phase.round, Phase.fold, Phase.next] → s.Formatted) ∧
  (s.phase ∈ [Phase.final, Phase.done] → s.AllBlocksDone) ∧
  (s.phase = Phase.expand → 16 ≤ s.t ∧ s.t < 64) ∧
  (s.phase = Phase.round → s.t < 64) ∧
  (s.phase ∈ [Phase.loadWv, Phase.fold, Phase.next, Phase.final, Phase.done] → s.t = 64) ∧
  (s.phase = Phase.done → s.doutWritten = true)

/-- The invariant of the machine: the memory's form, the counters' bounds, a record without repeats (R41), a phase code
that is not reserved (R87), a position its registers agree with, and a stopped core that reads as busy (R232). -/
abbrev State.Inv (s : State) : Prop :=
  s.MessageOk ∧ s.CountersOk ∧ s.faults.Nodup ∧ s.phase.toNat < 14 ∧ s.PositionOk ∧
  (s.coreStopped = true → s.busy = true)

/-! ## Words for statements -/

/-- Every byte of message memory reads as before. -/
abbrev SameMessage (s t : State) : Prop := ∀ a, t.readMsg a = s.readMsg a

/-- The effect of `raise Fault` (R232): `f` joins the record, which is a set, and nothing else changes. -/
abbrev Recorded (f : FaultRec) (s t : State) : Prop :=
  (∀ g, g ∈ t.faults ↔ g ∈ s.faults ∨ g = f) ∧ t = { s with faults := t.faults }

/-- The same for a read that faults, whose response is undefined (R232, log entry 5). -/
abbrev RecordedByRead (f : FaultRec) (s t : State) : Prop :=
  (∀ g, g ∈ t.faults ↔ g ∈ s.faults ∨ g = f) ∧ t = { s with faults := t.faults, rdata := none }

/-- MSG[0..len-1] holds the message, every byte of it written (R176). -/
abbrev Holds (s : State) (msg : List Byte) : Prop := ∀ k < msg.length, s.readMsg k = msg[k]?

/-- A turn the host's duty of message stability allows during a run of length `len` (R263): anything but a reset and a
write of a message byte below the length. -/
def Turn.stable (len : Nat) : Turn → Bool
  | .core => true
  | .reset => false
  | .host r =>
    match decodeRequest r with
    | .wrMsg _ addr _ => len ≤ addr
    | _ => true

/-- The host's transaction is a START: a write of CTRL with DATA[0] = 1 (R201). -/
def Turn.isStart : Turn → Bool
  | .core | .reset => false
  | .host r =>
    match decodeRequest r with
    | .wrCtrl data => startBit data
    | _ => false

/-- `k` steps from `s`, stopping at the first fault or refusal. -/
def run : Nat → State → Host.Outcome State Fault Refusal
  | 0, s => .next s
  | k + 1, s =>
    match step s with
    | .next t => run k t
    | .fault r => .fault r
    | .refused r => .refused r

end Sys2Proof.Machine
end

