-- ==== Sys2Proof/Certificates/Slice0/Obligations.lean ====
section
/-! DEFINITION. The statements for the provers, each with the rules of spec/ it rests on. `exec i s = .next t` is the
completion of instruction i; a frame is written `t = { s with ... }`, naming every register that may change, beside the
reads of message memory. -/

open Sys2Proof Sys2Proof.Machine

/-! ## Encodings (30_encoding) -/

/-- R80-R82, R85: decoding the encoded form of an instruction gives it back, with every operand at every value its field
admits, for any address width. -/
def Obligations.DecodeInvertsEncode : Prop :=
  ∀ (aw : Nat) (i : Instr), i.wellFormed aw = true → decode (encode aw i) = i

/-- R80-R82, R85, R89: encoding what was decoded gives back the transaction in the form the assembler writes, and every
phase code. -/
def Obligations.EncodeInvertsDecode : Prop :=
  ∀ (aw : Nat) (e : Encoded), e.wellFormed aw = true → encode aw (decode e) = e

/-- R82: every OP value matches exactly one row of the table, the row of the instruction it decodes to. -/
def Obligations.EveryOpHasExactlyOneRow : Prop :=
  ∀ r : HostReq,
    (∃ n row, (decodeRequest r).hostRow = some n ∧ hostRows[n]? = some row ∧ row.hits r.op = true ∧
      ∀ m row', hostRows[m]? = some row' → row'.hits r.op = true → m = n) ∧
    ∀ j, decodeRequest r = .rdDigest j → j = r.op.extractLsb' 0 3

/-- R82, R85, R89: words written out from the encoding tables decode to the instruction they stand for. -/
def Obligations.WordsOfTheSpecDecode : Prop :=
  decodeRequest ⟨0x01#6, 0, 0#32⟩ = .rdStatus ∧
  decodeRequest ⟨0x0B#6, 0, 0#32⟩ = .rdDigest 3#3 ∧
  decodeRequest ⟨0x06#6, 0, 0#32⟩ = .rdRsvd 2#2 ∧
  decodeRequest ⟨0x10#6, 0, 1#32⟩ = .wrCtrl 1#32 ∧
  decodeRequest ⟨0x13#6, 0, 7#32⟩ = .wrLenHi 7#32 ∧
  decodeRequest ⟨0x20#6, 5, 0#32⟩ = .rdMsg 0#4 5 ∧
  decodeRequest ⟨0x30#6, 2, 0x63#32⟩ = .wrMsg 0#4 2 0x63#32 ∧
  decodePhase 0x1#4 = .init ∧
  decodePhase 0x4#4 = .fmtPad ∧
  decodePhase 0x7#4 = .expand ∧
  decodePhase 0xA#4 = .fold ∧
  decodePhase 0xE#4 = .rsvdE

/-- R80, R81, R83, R86, R201: the fields and bits that carry no meaning have no effect. -/
def Obligations.FieldsWithoutMeaningAreIgnored : Prop :=
  (∀ op a a' d, op.getLsbD 5 = false → decodeRequest ⟨op, a, d⟩ = decodeRequest ⟨op, a', d⟩) ∧
  (∀ op a d d', op.getLsbD 4 = false → decodeRequest ⟨op, a, d⟩ = decodeRequest ⟨op, a, d'⟩) ∧
  (∀ idx idx' a s, exec (.rdMsg idx a) s = exec (.rdMsg idx' a) s) ∧
  (∀ idx idx' a (d d' : Word) s, d.toNat % 256 = d'.toNat % 256 →
    exec (.wrMsg idx a d) s = exec (.wrMsg idx' a d') s) ∧
  (∀ (d d' : Word) s, d.getLsbD 0 = d'.getLsbD 0 → exec (.wrCtrl d) s = exec (.wrCtrl d') s)

/-! ## A step, and where the next instruction is fetched -/

/-- R190, R64, R260, and log entries 1 and 18: a step takes the turn at the head of the tape. A host turn runs the decoded
transaction; a core turn, or an exhausted tape, runs the micro-operation the phase selects, or passes when the core is
stopped; a reset resets. -/
def Obligations.StepRunsTheTurn : Prop :=
  ∀ (s : State) (ts : List Turn),
    (∀ r, s.turns = .host r :: ts → step s = exec (decodeRequest r) { s with turns := ts }) ∧
    (s.turns = .core :: ts → s.coreStopped = false →
      step s = exec (decodePhase s.phase) { s with turns := ts }) ∧
    (s.turns = .core :: ts → s.coreStopped = true → step s = .next { s with turns := ts }) ∧
    (s.turns = [] → s.coreStopped = false → step s = exec (decodePhase s.phase) s) ∧
    (s.turns = [] → s.coreStopped = true → step s = .next s) ∧
    (s.turns = .reset :: ts → step s = .next ({ s with turns := ts } : State).resetEvent)

/-- The model's own (log entries 9 and 10): a table word that decodes to i, placed for fetching, is what the next step
runs. -/
def Obligations.PlacedWordRunsNext : Prop :=
  ∀ (s : State) (nbits w : Nat) (i : Instr), decodeTableWord nbits w = some i →
    step (s.withFetchWord nbits w) = exec i { s.withFetchWord nbits w with turns := s.turns }

/-! ## Reset (70_reset) -/

/-- R260, for every capacity: phase IDLE, STATUS 0, LEN 0, the record empty, no byte of MSG written and no FINAL since reset.
The capacity State.reset has is the model's choice (log entry 4). -/
def Obligations.ResetLeavesIdleAndEmpty : Prop :=
  (∀ cap : Nat,
    (State.resetOf cap).phase = 0x0#4 ∧ (State.resetOf cap).status = 0#32 ∧
    (State.resetOf cap).LEN_LO = 0#32 ∧ (State.resetOf cap).LEN_HI = 0#32 ∧
    (State.resetOf cap).faults = [] ∧ (∀ a, (State.resetOf cap).readMsg a = none) ∧
    (State.resetOf cap).doutWritten = false ∧ (State.resetOf cap).msgCap = cap) ∧
  State.reset = State.resetOf Config.msgCap

/-- R260, R261: a reset event, whatever the state, leaves the values reset gives, for the same capacity. That
MSG_CAP and the turns stay is log entry 17. -/
def Obligations.ResetAbandonsTheRun : Prop :=
  ∀ (s : State) (ts : List Turn), s.turns = .reset :: ts →
    ∃ t, step s = .next t ∧ t.phase = 0x0#4 ∧ t.status = 0#32 ∧ t.LEN_LO = 0#32 ∧ t.LEN_HI = 0#32 ∧
      t.faults = [] ∧ (∀ a, t.readMsg a = none) ∧ t.doutWritten = false ∧ t.msgCap = s.msgCap ∧
      t.turns = ts

/-- The invariant holds right after reset, for every capacity and every tape. That t <= 64 and i <= N there is the model's
choice of zeros for registers R260 leaves unspecified (log entry 2), not the spec's. -/
def Obligations.ResetMeetsInvariant : Prop :=
  ∀ (cap : Nat) (ts : List Turn), ({ State.resetOf cap with turns := ts } : State).Inv

/-! ## What every step keeps -/

/-- R43, R44, R50, R87, R108, R232: the invariant of every run, kept by every step from every state that meets
it. For a reset turn, t <= 64 and i <= N rest on the zeros the model chooses (log entries 2 and 17), not on the spec; a turn
of a core that has no step passes (log entry 18). -/
def Obligations.StepKeepsInvariant : Prop :=
  ∀ s t : State, s.Inv → step s = .next t → t.Inv

/-- R230, R43: a state that meets the invariant always has a next state: none of the stops the model chooses (log entry 7)
is reached from it, and a turn of a core that has no step passes (log entry 18). -/
def Obligations.InvariantStatesAlwaysStep : Prop :=
  ∀ s : State, s.Inv → ∃ t, step s = .next t

/-- R50, R61: the memory's canonical form and its address range are kept by every step, from every state that has them. -/
def Obligations.StepKeepsMessageForm : Prop :=
  ∀ s t : State, s.MessageOk → step s = .next t → t.MessageOk

/-- R12: no step changes MSG_CAP. -/
def Obligations.StepKeepsCapacity : Prop :=
  ∀ s t : State, step s = .next t → t.msgCap = s.msgCap

/-- R87: "No rule of this spec writes them to phase", so a step from a phase that is not reserved leads to one that is not. -/
def Obligations.StepNeverEntersReservedPhase : Prop :=
  ∀ s t : State, s.phase ≠ 0xE#4 → s.phase ≠ 0xF#4 → step s = .next t →
    t.phase ≠ 0xE#4 ∧ t.phase ≠ 0xF#4

/-- R41, R232: "No step clears the fault record"; only a reset empties it. -/
def Obligations.FaultRecordOnlyGrows : Prop :=
  ∀ s t : State, (∀ ts, s.turns ≠ .reset :: ts) → step s = .next t → ∀ f ∈ s.faults, f ∈ t.faults

/-- R232, R236: once the record holds a core fault and the phase reads as busy, every step but a reset leaves the core
where it is: phase, datapath and DOUT stay, and it is still stopped and busy. That its turns pass is log entry 18. -/
def Obligations.StoppedCoreStaysStopped : Prop :=
  ∀ s t : State, s.coreStopped = true → s.busy = true → (∀ ts, s.turns ≠ .reset :: ts) →
    step s = .next t →
    t.coreStopped = true ∧ t.busy = true ∧ t.phase = s.phase ∧ t.H = s.H ∧ t.WV = s.WV ∧ t.BLK = s.BLK ∧
    t.W = s.W ∧ t.L = s.L ∧ t.N = s.N ∧ t.i = s.i ∧ t.t = s.t ∧ t.padInserted = s.padInserted ∧
    t.lenWritten = s.lenWritten ∧ t.DOUT = s.DOUT ∧ t.doutWritten = s.doutWritten

/-- R191, R194, R201: from IDLE or DONE only a START or a reset moves the phase. That a turn of the core passes there is
log entry 18. -/
def Obligations.OnlyStartLeavesIdleOrDone : Prop :=
  ∀ s t : State, s.busy = false → (∀ u, s.turns.head? = some u → u ≠ .reset ∧ u.isStart = false) →
    step s = .next t → t.phase = s.phase

/-- R38, R175: DOUT changes only at FINAL and at reset. That a turn of a stopped core passes is log entry 18. -/
def Obligations.OnlyFinalWritesDigest : Prop :=
  ∀ s t : State, (∀ ts, s.turns ≠ .reset :: ts) → step s = .next t →
    (∃ r ts, s.turns = .host r :: ts) ∨ s.phase ≠ Phase.final ∨ s.coreStopped = true →
    t.DOUT = s.DOUT ∧ t.doutWritten = s.doutWritten

/-! ## What each agent can change -/

/-- R50, R63, R70: no micro-operation writes MSG, LEN, the capacity or the response, and none removes a fault.
The response and the turns are the model's own fields (log entries 5 and 1). -/
def Obligations.CoreFrame : Prop :=
  ∀ (i : Instr) (s t : State), i.isCore = true → exec i s = .next t →
    SameMessage s t ∧ t.MSG = s.MSG ∧ t.LEN_LO = s.LEN_LO ∧ t.LEN_HI = s.LEN_HI ∧
    t.msgCap = s.msgCap ∧ t.rdata = s.rdata ∧ t.turns = s.turns ∧ ∀ f ∈ s.faults, f ∈ t.faults

/-- R42, R208: no host transaction changes a datapath register or DOUT; only a START that is taken changes the phase;
and only WR_MSG changes a byte of message memory. The turns are the model's own field (log entry 1). -/
def Obligations.HostFrame : Prop :=
  ∀ (i : Instr) (s t : State), i.isCore = false → exec i s = .next t →
    t.H = s.H ∧ t.WV = s.WV ∧ t.BLK = s.BLK ∧ t.W = s.W ∧ t.L = s.L ∧ t.N = s.N ∧ t.i = s.i ∧ t.t = s.t ∧
    t.padInserted = s.padInserted ∧ t.lenWritten = s.lenWritten ∧ t.DOUT = s.DOUT ∧
    t.doutWritten = s.doutWritten ∧ t.msgCap = s.msgCap ∧ t.turns = s.turns ∧
    (t.phase = s.phase ∨
      ∃ data : Word, i = .wrCtrl data ∧ data.getLsbD 0 = true ∧ s.busy = false ∧ t.phase = 0x1#4) ∧
    (∀ a, (∀ idx data, i ≠ .wrMsg idx a data) → t.readMsg a = s.readMsg a) ∧
    t.coreStopped = s.coreStopped

/-- R61: every host transaction repeated at once changes nothing more, and a read changes nothing but the response and,
when it faults, the record. The response, and what it holds after a fault, is the model's choice (log entry 5). -/
def Obligations.RepeatedTransactionChangesNothing : Prop :=
  ∀ (i : Instr) (s t : State), i.isCore = false → exec i s = .next t →
    exec i t = .next t ∧
    (i.isRead = true → t = { s with rdata := t.rdata, faults := t.faults } ∧
      (t.rdata ≠ none → t.faults = s.faults))

/-- R160, R172, R105 and log entry 7 (the model's own choice of stops): exactly when an instruction stops. No run gets
there. -/
def Obligations.ExecStopsOnlyWhereNoElementExists : Prop :=
  ∀ (i : Instr) (s : State),
    (∀ f, exec i s = .fault f ↔
      (i = .expand ∧ ¬(16 ≤ s.t ∧ s.t < 64) ∧ f = .expandIndex) ∨
      (i = .round ∧ 64 ≤ s.t ∧ f = .roundIndex) ∨
      (i = .fmtPad ∧ s.padInserted = false ∧ s.L.toNat < 64 * s.i ∧ f = .padIndex)) ∧
    ∀ r, exec i s ≠ .refused r

/-! ## The host's register transactions (44_control) -/

/-- R202, R213, R35: CTRL and the reserved indices read 0. -/
def Obligations.CtrlAndReservedReadZero : Prop :=
  (∀ a d, decodeRequest ⟨0x00#6, a, d⟩ = .rdCtrl) ∧
  (∀ k a d, decodeRequest ⟨0b0001#4 ++ k, a, d⟩ = .rdRsvd k) ∧
  ∀ (s : State) (k : BitVec 2),
    exec .rdCtrl s = .next { s with rdata := some 0#32 } ∧
    exec (.rdRsvd k) s = .next { s with rdata := some 0#32 }

/-- R203, R32: STATUS reads 0 in IDLE, 2 in DONE and 1 in every other phase. -/
def Obligations.StatusReadsThePhase : Prop :=
  (∀ a d, decodeRequest ⟨0x01#6, a, d⟩ = .rdStatus) ∧
  ∀ s : State, ∃ v : Word,
    exec .rdStatus s = .next { s with rdata := some v } ∧
    v.toNat = if s.phase = 0xD#4 then 2 else if s.phase = 0x0#4 then 0 else 1

/-- R209 to R212, R33: LEN_LO and LEN_HI are written and read back, each alone. -/
def Obligations.LengthRegistersReadAndWrite : Prop :=
  (∀ a d, decodeRequest ⟨0x02#6, a, d⟩ = .rdLenLo ∧ decodeRequest ⟨0x03#6, a, d⟩ = .rdLenHi ∧
    decodeRequest ⟨0x12#6, a, d⟩ = .wrLenLo d ∧ decodeRequest ⟨0x13#6, a, d⟩ = .wrLenHi d) ∧
  ∀ (s : State) (data : Word),
    exec .rdLenLo s = .next { s with rdata := some s.LEN_LO } ∧
    exec .rdLenHi s = .next { s with rdata := some s.LEN_HI } ∧
    exec (.wrLenLo data) s = .next { s with LEN_LO := data } ∧
    exec (.wrLenHi data) s = .next { s with LEN_HI := data } ∧
    ({ s with LEN_LO := data } : State).LEN.toNat = s.LEN_HI.toNat * 2 ^ 32 + data.toNat ∧
    ({ s with LEN_HI := data } : State).LEN.toNat = data.toNat * 2 ^ 32 + s.LEN_LO.toNat

/-- R204, R208, R214: writes to STATUS, to a reserved index and to a digest register have no effect. -/
def Obligations.ReadOnlyRegistersIgnoreWrites : Prop :=
  (∀ j k a d, decodeRequest ⟨0x11#6, a, d⟩ = .wrStatus d ∧ decodeRequest ⟨0b0101#4 ++ k, a, d⟩ = .wrRsvd k d ∧
    decodeRequest ⟨0b011#3 ++ j, a, d⟩ = .wrDigest j d) ∧
  ∀ (s : State) (j : BitVec 3) (k : BitVec 2) (data : Word),
    exec (.wrStatus data) s = .next s ∧ exec (.wrRsvd k data) s = .next s ∧
    exec (.wrDigest j data) s = .next s

/-- R201, R31, R265: START from IDLE or DONE enters INIT and changes nothing else; while busy, and with bit 0 clear, a
write of CTRL has no effect. -/
def Obligations.StartBeginsARunUnlessBusy : Prop :=
  (∀ a d, decodeRequest ⟨0x10#6, a, d⟩ = .wrCtrl d) ∧
  ∀ (s : State) (data : Word),
    (data.getLsbD 0 = true → (s.phase = 0x0#4 ∨ s.phase = 0xD#4) →
      ∃ t, exec (.wrCtrl data) s = .next t ∧ t.phase = 0x1#4 ∧ t = { s with phase := t.phase } ∧
        SameMessage s t ∧ t.status = 1#32) ∧
    (¬(data.getLsbD 0 = true ∧ (s.phase = 0x0#4 ∨ s.phase = 0xD#4)) →
      exec (.wrCtrl data) s = .next s)

/-- R207, R34, R56: once a FINAL has run, DIGESTj reads the four bytes DOUT[4j..4j+3], the first most significant;
before that it is the fault DOUT_UNWRITTEN with j. That the response then holds none is the model's choice (log entry 5). -/
def Obligations.DigestReadsBigEndian : Prop :=
  (∀ j a d, decodeRequest ⟨0b001#3 ++ j, a, d⟩ = .rdDigest j) ∧
  ∀ (s : State) (j : Nat) (hj : j < 8),
    (s.doutWritten = true → ∃ v : Word,
      exec (.rdDigest (BitVec.ofNat 3 j)) s = .next { s with rdata := some v } ∧
      v.toNat = s.DOUT[4 * j].toNat * 2 ^ 24 + s.DOUT[4 * j + 1].toNat * 2 ^ 16 +
        s.DOUT[4 * j + 2].toNat * 2 ^ 8 + s.DOUT[4 * j + 3].toNat) ∧
    (s.doutWritten = false → ∃ t,
      exec (.rdDigest (BitVec.ofNat 3 j)) s = .next t ∧
      RecordedByRead (.doutUnwritten (BitVec.ofNat 3 j)) s t ∧ SameMessage s t ∧
      t.coreStopped = s.coreStopped)

/-! ## The host's message transactions (44_control) -/

/-- R205: WR_MSG below MSG_CAP stores DATA[7:0] at ADDR and leaves every other byte and every register alone; at or above
it is MSG_RANGE with ADDR, which enters the record, changes nothing else and does not stop the core (R232). -/
def Obligations.WriteMsgStoresOneByte : Prop :=
  (∀ idx a d, decodeRequest ⟨0b11#2 ++ idx, a, d⟩ = .wrMsg idx a d) ∧
  ∀ (s : State) (idx : BitVec 4) (addr : Nat) (data : Word),
    (addr < s.msgCap →
      ∃ t, exec (.wrMsg idx addr data) s = .next t ∧
        (∃ b : Byte, t.readMsg addr = some b ∧ b.toNat = data.toNat % 256) ∧
        (∀ a, a ≠ addr → t.readMsg a = s.readMsg a) ∧ t = { s with MSG := t.MSG }) ∧
    (s.msgCap ≤ addr →
      ∃ t, exec (.wrMsg idx addr data) s = .next t ∧ Recorded (.msgRange addr) s t ∧ SameMessage s t ∧
        t.coreStopped = s.coreStopped)

/-- R206: RD_MSG returns the byte, zero-extended; at or above MSG_CAP it is MSG_RANGE, whatever the byte, and below it an
unwritten byte is UNWRITTEN_MSG. A fault enters the record, changes nothing else and does not stop the core (R232,
R234). That the response holds none after a fault is the model's choice (log entry 5). -/
def Obligations.ReadMsgReturnsTheByte : Prop :=
  (∀ idx a d, decodeRequest ⟨0b10#2 ++ idx, a, d⟩ = .rdMsg idx a) ∧
  ∀ (s : State) (idx : BitVec 4) (addr : Nat),
    (∀ b : Byte, s.readMsg addr = some b →
      ∃ v : Word, exec (.rdMsg idx addr) s = .next { s with rdata := some v } ∧ v.toNat = b.toNat) ∧
    (s.msgCap ≤ addr →
      ∃ t, exec (.rdMsg idx addr) s = .next t ∧ RecordedByRead (.msgRange addr) s t ∧ SameMessage s t ∧
        t.coreStopped = s.coreStopped) ∧
    (addr < s.msgCap → s.readMsg addr = none →
      ∃ t, exec (.rdMsg idx addr) s = .next t ∧ RecordedByRead (.unwrittenMsg .host addr) s t ∧
        SameMessage s t ∧ t.coreStopped = s.coreStopped)

/-- R205, R206, R64: a byte written by WR_MSG is what RD_MSG then returns, DATA[7:0] zero-extended. -/
def Obligations.WrittenByteReadsBack : Prop :=
  ∀ (s : State) (idx idx' : BitVec 4) (addr : Nat) (data : Word), addr < s.msgCap →
    ∃ t u, exec (.wrMsg idx addr data) s = .next t ∧ exec (.rdMsg idx' addr) t = .next u ∧
      u.rdata = some (data &&& 0xFF#32)

/-! ## The sequencer's own phases (44_control) -/

/-- R191, R194: in IDLE and in DONE the core has no step. That a turn given to it passes, with the state unchanged, is the
model's choice (log entry 18). -/
def Obligations.IdleAndDoneChangeNothing : Prop :=
  ∀ s : State, exec .idle s = .next s ∧ exec .done s = .next s

/-- R192: with LEN at most MSG_CAP, INIT latches LEN, loads IV, computes the block count (R101), clears i and both flags
and goes to FMT_ZERO; DOUT and every other register stay. With LEN above MSG_CAP it records MSG_OVERRUN with the length,
writes nothing else and stops the core (R231, R232). -/
def Obligations.InitStartsARunUnlessTooLong : Prop :=
  decodePhase 0x1#4 = .init ∧
  ∀ s : State,
    (s.LEN_HI.toNat * 2 ^ 32 + s.LEN_LO.toNat ≤ s.msgCap →
      ∃ t, exec .init s = .next t ∧
        t.L.toNat = s.LEN_HI.toNat * 2 ^ 32 + s.LEN_LO.toNat ∧ (∀ j (h : j < 8), t.H[j] = ivRom[j]) ∧
        t.N = (t.L.toNat + 8) / 64 + 1 ∧ t.i = 0 ∧ t.padInserted = false ∧ t.lenWritten = false ∧
        t.phase = 0x2#4 ∧
        t = { s with L := t.L, H := t.H, N := t.N, i := t.i, padInserted := t.padInserted,
                     lenWritten := t.lenWritten, phase := t.phase } ∧
        SameMessage s t) ∧
    (s.msgCap < s.LEN_HI.toNat * 2 ^ 32 + s.LEN_LO.toNat →
      ∃ t, exec .init s = .next t ∧ Recorded (.msgOverrun (s.LEN_HI ++ s.LEN_LO)) s t ∧
        SameMessage s t ∧ t.coreStopped = true)

/-- R193: NEXT counts the block and goes to FMT_ZERO while blocks remain, else to FINAL. -/
def Obligations.NextCountsTheBlock : Prop :=
  decodePhase 0xB#4 = .next ∧
  ∀ s : State, ∃ t, exec .next s = .next t ∧ t.i = s.i + 1 ∧
    t.phase = (if s.i + 1 < s.N then 0x2#4 else 0xC#4) ∧
    t = { s with i := t.i, phase := t.phase } ∧ SameMessage s t

/-- R195, R231, R232: a reserved phase records RSVD_PHASE with its code, keeps the phase and stops the core. -/
def Obligations.ReservedPhaseStopsTheCore : Prop :=
  ∀ s : State,
    (∃ t, exec .rsvdE s = .next t ∧ Recorded (.rsvdPhase 0xE#4) s t ∧ SameMessage s t ∧
      t.coreStopped = true) ∧
    ∃ t, exec .rsvdF s = .next t ∧ Recorded (.rsvdPhase 0xF#4) s t ∧ SameMessage s t ∧
      t.coreStopped = true

/-! ## The padder (40_padder) -/

/-- R101: the three forms of the block count agree for every length, k being the least number of zero bits, and the count
of a 64-bit length is at most 2^58 + 1. -/
def Obligations.BlockCountFormsAgree : Prop :=
  ∀ len : Nat,
    blockCount len = (len + 8) / 64 + 1 ∧
    (∀ k, k < 512 → (8 * len + 1 + k) % 512 = 448 → blockCount len = (8 * len + 1 + k + 64) / 512) ∧
    blockCount len = (8 * len + 1 + 64 + 511) / 512 ∧
    (len < 2 ^ 64 → blockCount len ≤ 2 ^ 58 + 1)

/-- R100: the padded message is the message, one 0x80, zeros, and the bit length in the last 8 bytes, most significant
first; its length is blockCount blocks. -/
def Obligations.PaddedMessageShape : Prop :=
  ∀ msg : List Byte,
    (padded msg).length = 64 * blockCount msg.length ∧
    ∀ p, p < (padded msg).length →
      (padded msg)[p]? = some
        (if h : p < msg.length then msg[p]
         else if p = msg.length then 0x80#8
         else if p + 8 < (padded msg).length then 0x00#8
         else BitVec.ofNat 8 ((8 * msg.length % 2 ^ 64) / 2 ^ (8 * ((padded msg).length - 1 - p)) % 256))

/-- R103: FMT_ZERO zeroes the block. -/
def Obligations.FmtZeroClearsTheBlock : Prop :=
  decodePhase 0x2#4 = .fmtZero ∧
  ∀ s : State, ∃ t, exec .fmtZero s = .next t ∧ (∀ j (h : j < 64), t.BLK[j] = 0x00#8) ∧
    t.phase = 0x3#4 ∧ t = { s with BLK := t.BLK, phase := t.phase } ∧ SameMessage s t

/-- R104: with every byte read written, FMT_COPY copies the n = min(max(L - 64i, 0), 64) message bytes of the block and
leaves the rest of the block; an unwritten byte among them is UNWRITTEN_MSG at the lowest such address (R234), and the core
stops with nothing else written (R232). Where L > MSG_CAP, which no run has, that an address at or above MSG_CAP counts as
unwritten is the model's choice (log entry 7). -/
def Obligations.FmtCopyCopiesTheMessage : Prop :=
  decodePhase 0x3#4 = .fmtCopy ∧
  ∀ s : State,
    ((∀ j, j < min (s.L.toNat - 64 * s.i) 64 → (s.readMsg (64 * s.i + j)).isSome) →
      ∃ t, exec .fmtCopy s = .next t ∧
        (∀ j (h : j < 64),
          if j < min (s.L.toNat - 64 * s.i) 64 then s.readMsg (64 * s.i + j) = some t.BLK[j]
          else t.BLK[j] = s.BLK[j]) ∧
        t.phase = 0x4#4 ∧ t = { s with BLK := t.BLK, phase := t.phase } ∧ SameMessage s t) ∧
    ∀ j, j < min (s.L.toNat - 64 * s.i) 64 → s.readMsg (64 * s.i + j) = none →
      (∀ k, k < j → (s.readMsg (64 * s.i + k)).isSome) →
      ∃ t, exec .fmtCopy s = .next t ∧ Recorded (.unwrittenMsg .core (64 * s.i + j)) s t ∧
        SameMessage s t ∧ t.coreStopped = true

/-- R105: in the first block with fewer than 64 bytes of message left, FMT_PAD puts 0x80 right after them and sets
padInserted; in any other block it writes nothing. -/
def Obligations.FmtPadInsertsOneByte : Prop :=
  decodePhase 0x4#4 = .fmtPad ∧
  ∀ s : State,
    (∀ r, s.padInserted = false → s.L.toNat = 64 * s.i + r → r < 64 →
      ∃ t, exec .fmtPad s = .next t ∧
        (∀ j (h : j < 64), t.BLK[j] = if j = r then 0x80#8 else s.BLK[j]) ∧
        t.padInserted = true ∧ t.phase = 0x5#4 ∧
        t = { s with BLK := t.BLK, padInserted := t.padInserted, phase := t.phase } ∧ SameMessage s t) ∧
    (s.padInserted = true ∨ 64 * s.i + 64 ≤ s.L.toNat →
      ∃ t, exec .fmtPad s = .next t ∧ t.phase = 0x5#4 ∧ t = { s with phase := t.phase } ∧
        SameMessage s t)

/-- R106, R109, R54: with the padding byte in, the length not yet, and rem at most 55, FMT_LEN writes (8L) mod 2^64 to
bytes 56..63, most significant first, and sets lenWritten; otherwise it writes nothing. -/
def Obligations.FmtLenWritesTheBitLength : Prop :=
  decodePhase 0x5#4 = .fmtLen ∧
  ∀ s : State,
    (s.padInserted = true → s.lenWritten = false → s.L.toNat ≤ 64 * s.i + 55 →
      ∃ t, exec .fmtLen s = .next t ∧
        (∀ k (h : k < 8), t.BLK[56 + k].toNat = (8 * s.L.toNat % 2 ^ 64) / 2 ^ (56 - 8 * k) % 256) ∧
        (∀ j (h : j < 56), t.BLK[j] = s.BLK[j]) ∧
        t.lenWritten = true ∧ t.phase = 0x6#4 ∧
        t = { s with BLK := t.BLK, lenWritten := t.lenWritten, phase := t.phase } ∧ SameMessage s t) ∧
    (¬(s.padInserted = true ∧ s.lenWritten = false ∧ s.L.toNat ≤ 64 * s.i + 55) →
      ∃ t, exec .fmtLen s = .next t ∧ t.phase = 0x6#4 ∧ t = { s with phase := t.phase } ∧
        SameMessage s t)

/-- R107, R53: UNPACK reads the block as 16 big-endian words and sets t to 16. -/
def Obligations.UnpackReadsBigEndian : Prop :=
  decodePhase 0x6#4 = .unpack ∧
  ∀ s : State, ∃ t, exec .unpack s = .next t ∧
    (∀ j (h : j < 16), t.W[j].toNat = s.BLK[4 * j].toNat * 2 ^ 24 + s.BLK[4 * j + 1].toNat * 2 ^ 16 +
      s.BLK[4 * j + 2].toNat * 2 ^ 8 + s.BLK[4 * j + 3].toNat) ∧
    (∀ j (h : j < 64), 16 ≤ j → t.W[j] = s.W[j]) ∧
    t.t = 16 ∧ t.phase = 0x7#4 ∧ t = { s with W := t.W, t := t.t, phase := t.phase } ∧ SameMessage s t

/-! ## Functions (41_functions) -/

/-- R131: bit b of ROTR(n, x) is bit (b + n) mod 32 of x; R132: SHR(n, x) = floor(x / 2^n); for 0 < n < 32. -/
def Obligations.RotateAndShiftBits : Prop :=
  ∀ (n : Nat) (x : Word), 0 < n → n < 32 →
    (∀ b, b < 32 → (rotr n x).getLsbD b = x.getLsbD ((b + n) % 32)) ∧
    (shr n x).toNat = x.toNat / 2 ^ n

/-- R134 to R139: each sigma, Ch and Maj, bit by bit. -/
def Obligations.LogicalFunctionsBitByBit : Prop :=
  ∀ (x y z : Word) (b : Nat), b < 32 →
    (sigma0 x).getLsbD b = ((x.getLsbD ((b + 7) % 32) ^^ x.getLsbD ((b + 18) % 32)) ^^ x.getLsbD (b + 3)) ∧
    (sigma1 x).getLsbD b = ((x.getLsbD ((b + 17) % 32) ^^ x.getLsbD ((b + 19) % 32)) ^^ x.getLsbD (b + 10)) ∧
    (bigSigma0 x).getLsbD b
      = ((x.getLsbD ((b + 2) % 32) ^^ x.getLsbD ((b + 13) % 32)) ^^ x.getLsbD ((b + 22) % 32)) ∧
    (bigSigma1 x).getLsbD b
      = ((x.getLsbD ((b + 6) % 32) ^^ x.getLsbD ((b + 11) % 32)) ^^ x.getLsbD ((b + 25) % 32)) ∧
    (ch x y z).getLsbD b = (if x.getLsbD b then y.getLsbD b else z.getLsbD b) ∧
    (maj x y z).getLsbD b
      = decide (2 ≤ (x.getLsbD b).toNat + (y.getLsbD b).toNat + (z.getLsbD b).toNat)

/-! ## The schedule (42_schedule) -/

/-- R160: EXPAND, entered with 16 <= t <= 63, writes W[t] alone, counts t and leaves for LOAD_WV after t = 63. -/
def Obligations.ExpandComputesOneWord : Prop :=
  decodePhase 0x7#4 = .expand ∧
  ∀ (s : State) (h : 16 ≤ s.t ∧ s.t < 64), ∃ t, exec .expand s = .next t ∧
    t.W[s.t] = sigma1 s.W[s.t - 2] + s.W[s.t - 7] + sigma0 s.W[s.t - 15] + s.W[s.t - 16] ∧
    (∀ j (hj : j < 64), j ≠ s.t → t.W[j] = s.W[j]) ∧
    t.t = s.t + 1 ∧ t.phase = (if s.t = 63 then 0x8#4 else 0x7#4) ∧
    t = { s with W := t.W, t := t.t, phase := t.phase } ∧ SameMessage s t

/-- R160, R161: 48 turns of the core from EXPAND at t = 16 give a schedule whose every word from 16 on is the rule's sum
of earlier words of that same schedule, with the first 16 words kept, and enter LOAD_WV. An exhausted tape schedules the
core (log entry 1). -/
def Obligations.ExpandRunCompletesTheSchedule : Prop :=
  ∀ s : State, s.phase = Phase.expand → s.t = 16 → s.turns = [] → s.coreStopped = false →
    ∃ t, run 48 s = .next t ∧
      (∀ j (h : j < 16), t.W[j] = s.W[j]) ∧
      (∀ j (h : j < 48), t.W[j + 16] = sigma1 t.W[j + 14] + t.W[j + 9] + sigma0 t.W[j + 1] + t.W[j]) ∧
      t.phase = Phase.loadWv ∧ t.t = 64 ∧ t = { s with W := t.W, t := t.t, phase := t.phase }

/-! ## The compressor (43_compress) -/

/-- R170: LOAD_WV copies the hash state into a..h and clears t. -/
def Obligations.LoadWvCopiesTheHash : Prop :=
  decodePhase 0x8#4 = .loadWv ∧
  ∀ s : State, ∃ t, exec .loadWv s = .next t ∧ (∀ j (h : j < 8), t.WV[j] = s.H[j]) ∧ t.t = 0 ∧
    t.phase = 0x9#4 ∧ t = { s with WV := t.WV, t := t.t, phase := t.phase } ∧ SameMessage s t

/-- R171, R172: ROUND, entered with t <= 63, is the parallel assignment of the old a..h with T1 and T2, counts t and
leaves for FOLD after t = 63. -/
def Obligations.RoundIsTheParallelAssignment : Prop :=
  decodePhase 0x9#4 = .round ∧
  ∀ (s : State) (h : s.t < 64), ∃ (t : State) (t1 t2 : Word), exec .round s = .next t ∧
    t1 = s.WV[7] + bigSigma1 s.WV[4] + ch s.WV[4] s.WV[5] s.WV[6] + kRom[s.t] + s.W[s.t] ∧
    t2 = bigSigma0 s.WV[0] + maj s.WV[0] s.WV[1] s.WV[2] ∧
    t.WV[7] = s.WV[6] ∧ t.WV[6] = s.WV[5] ∧ t.WV[5] = s.WV[4] ∧ t.WV[4] = s.WV[3] + t1 ∧
    t.WV[3] = s.WV[2] ∧ t.WV[2] = s.WV[1] ∧ t.WV[1] = s.WV[0] ∧ t.WV[0] = t1 + t2 ∧
    t.t = s.t + 1 ∧ t.phase = (if s.t = 63 then 0xA#4 else 0x9#4) ∧
    t = { s with WV := t.WV, t := t.t, phase := t.phase } ∧ SameMessage s t

/-- R172, R161: 64 turns of the core from ROUND at t = 0 compose the 64 rounds on the words of W and enter FOLD. An
exhausted tape schedules the core (log entry 1). -/
def Obligations.RoundRunComposesSixtyFourRounds : Prop :=
  ∀ s : State, s.phase = Phase.round → s.t = 0 → s.turns = [] → s.coreStopped = false →
    ∃ t, run 64 s = .next t ∧ t.WV = (List.range 64).foldl (roundAt s.W) s.WV ∧
      t.phase = Phase.fold ∧ t.t = 64 ∧ t = { s with WV := t.WV, t := t.t, phase := t.phase }

/-- R173: FOLD adds each working variable into its hash word, each sum mod 2^32 on its own. -/
def Obligations.FoldAddsModulo : Prop :=
  decodePhase 0xA#4 = .fold ∧
  ∀ s : State, ∃ t, exec .fold s = .next t ∧
    (∀ j (h : j < 8), t.H[j].toNat = (s.H[j].toNat + s.WV[j].toNat) % 2 ^ 32) ∧
    t.phase = 0xB#4 ∧ t = { s with H := t.H, phase := t.phase } ∧ SameMessage s t

/-- R175, R55: FINAL writes DOUT[4j+k] = H[j][31-8k : 24-8k], enters DONE and changes nothing else; R34: DIGESTj then
reads the value H[j] had. -/
def Obligations.FinalSerialisesBigEndian : Prop :=
  decodePhase 0xC#4 = .final ∧
  ∀ s : State, ∃ t, exec .final s = .next t ∧
    (∀ j (hj : j < 8) k (hk : k < 4), t.DOUT[4 * j + k].toNat = s.H[j].toNat / 2 ^ (24 - 8 * k) % 256) ∧
    (∀ j (hj : j < 8), ∃ u, exec (.rdDigest (BitVec.ofNat 3 j)) t = .next u ∧ u.rdata = some s.H[j]) ∧
    t.doutWritten = true ∧ t.phase = 0xD#4 ∧ t.status = 2#32 ∧
    t = { s with DOUT := t.DOUT, doutWritten := t.doutWritten, phase := t.phase } ∧ SameMessage s t

/-! ## Whole blocks and whole runs -/

/-- R102, R108: four turns of the core from FMT_ZERO of block i build exactly bytes 64i .. 64i+63 of the padded message,
for every block of the run and every message, and leave both flags as rule R108 says. An exhausted tape schedules the
core (log entry 1). -/
def Obligations.FormattedBlockIsThePaddedMessage : Prop :=
  ∀ (s : State) (msg : List Byte), s.phase = Phase.fmtZero → s.turns = [] → s.coreStopped = false →
    s.BeforePad → s.L.toNat = msg.length → Holds s msg →
    ∃ t, run 4 s = .next t ∧ t.phase = Phase.unpack ∧ t.BLK = blockAt (padded msg) s.i ∧
      t.padInserted = decide (msg.length / 64 ≤ s.i) ∧ t.lenWritten = decide (s.i + 1 = s.N) ∧
      t = { s with BLK := t.BLK, padInserted := t.padInserted, lenWritten := t.lenWritten, phase := t.phase }

/-- R176, R196: from INIT, with the message of LEN bytes written and LEN at most MSG_CAP, exactly 120 N + 2 turns of the
core enter DONE, busy until then, with DOUT = SHA256(M) and the memory, LEN, the record and the response as they were.
An exhausted tape schedules the core (log entry 1). -/
def Obligations.UninterruptedRunHashesTheMessage : Prop :=
  ∀ (s : State) (msg : List Byte), s.phase = Phase.init → s.turns = [] → s.coreStopped = false →
    s.LEN.toNat = msg.length → msg.length ≤ s.msgCap → Holds s msg →
    ∃ t, run (120 * blockCount msg.length + 2) s = .next t ∧
      t.phase = Phase.done ∧ t.DOUT = sha256 msg ∧ t.doutWritten = true ∧ t.MSG = s.MSG ∧
      t.LEN_LO = s.LEN_LO ∧ t.LEN_HI = s.LEN_HI ∧ t.faults = s.faults ∧ t.rdata = s.rdata ∧
      ∀ k, k < 120 * blockCount msg.length + 2 → ∃ u, run k s = .next u ∧ u.busy = true

/-- R176, R64, R67, R263, R265, R266, R267: the same for EVERY interleaving. Between the run's first and last turn of the
core the host may do anything, any number of times, but write a message byte below the length; DOUT is still
SHA256(M) after the run's 120 N + 2 turns of the core, and the run reads as busy until then. The tape of turns is the
model's own (log entry 1). -/
def Obligations.EveryInterleavingHashesTheMessage : Prop :=
  ∀ (s : State) (msg : List Byte) (ts rest : List Turn), s.phase = Phase.init → s.coreStopped = false →
    s.LEN.toNat = msg.length → msg.length ≤ s.msgCap → Holds s msg →
    s.turns = .core :: (ts ++ .core :: rest) → (∀ u ∈ ts, u.stable msg.length = true) →
    ts.count .core = 120 * blockCount msg.length →
    ∃ t, run (ts.length + 2) s = .next t ∧ t.phase = Phase.done ∧ t.DOUT = sha256 msg ∧
      t.doutWritten = true ∧ t.coreStopped = false ∧ t.turns = rest ∧
      ∀ k, k < ts.length + 2 → ∃ u, run k s = .next u ∧ u.busy = true
end

