-- ==== Sys2Proof/Laws/Operands.lean ====
section
/-! SUPPORT. What the operand forms and the status word are as numbers. -/

namespace Sys2Proof.Machine

theorem toNat_append_eq {m n : Nat} (x : BitVec m) (y : BitVec n) :
    (x ++ y).toNat = x.toNat * 2 ^ n + y.toNat := by
  rw [BitVec.toNat_append, ← Nat.shiftLeft_add_eq_or_of_lt y.isLt, Nat.shiftLeft_eq]

theorem be32_toNat (b0 b1 b2 b3 : Byte) :
    (be32 b0 b1 b2 b3).toNat
      = b0.toNat * 2 ^ 24 + b1.toNat * 2 ^ 16 + b2.toNat * 2 ^ 8 + b3.toNat := by
  simp only [be32, toNat_append_eq]
  omega

theorem byteOf_toNat (x : Word) (k : Nat) :
    (byteOf x k).toNat = x.toNat / 2 ^ (24 - 8 * k) % 256 := by
  simp [byteOf, BitVec.extractLsb'_toNat, Nat.shiftRight_eq_div_pow]

theorem byteOf64_toNat (x : DWord) (k : Nat) :
    (byteOf64 x k).toNat = x.toNat / 2 ^ (56 - 8 * k) % 256 := by
  simp [byteOf64, BitVec.extractLsb'_toNat, Nat.shiftRight_eq_div_pow]

theorem zext32_toNat (b : Byte) : (zext32 b).toNat = b.toNat := by
  rw [zext32, BitVec.toNat_setWidth]
  omega

theorem dataByte_toNat (d : Word) : (dataByte d).toNat = d.toNat % 256 := by
  simp [dataByte, BitVec.extractLsb'_toNat]

theorem State.LEN_toNat (s : State) : s.LEN.toNat = s.LEN_HI.toNat * 2 ^ 32 + s.LEN_LO.toNat := by
  rw [State.LEN, toNat_append_eq]

/-- n is the smaller of what remains and 64, with a negative remainder read as 0 (R104). -/
theorem State.copyCount_eq (s : State) : s.copyCount = min (s.L.toNat - 64 * s.i) 64 := by
  simp only [State.copyCount, State.rem]
  omega

theorem State.copyCount_le (s : State) : s.copyCount ≤ 64 := by
  rw [State.copyCount_eq]; omega

theorem State.padNow_iff (s : State) :
    s.padNow = true ↔ s.padInserted = false ∧ s.L.toNat < 64 * s.i + 64 := by
  rw [State.padNow, Bool.and_eq_true, Bool.not_eq_true', decide_eq_true_iff, State.rem]
  exact and_congr_right fun _ => by omega

theorem State.lenNow_iff (s : State) :
    s.lenNow = true ↔ s.padInserted = true ∧ s.lenWritten = false ∧ s.L.toNat < 64 * s.i + 56 := by
  rw [State.lenNow, Bool.and_eq_true, Bool.and_eq_true, Bool.not_eq_true', decide_eq_true_iff, State.rem,
    and_assoc]
  exact and_congr_right fun _ => and_congr_right fun _ => by omega

theorem State.busy_iff (s : State) : s.busy = true ↔ s.phase ≠ Phase.idle ∧ s.phase ≠ Phase.done := by
  simp [State.busy]

theorem State.busy_eq_false_iff (s : State) :
    s.busy = false ↔ s.phase = Phase.idle ∨ s.phase = Phase.done := by
  rw [State.busy, Bool.not_eq_false', Bool.or_eq_true, beq_iff_eq, beq_iff_eq]

theorem lengthField_toNat (l : DWord) : (lengthField l).toNat = 8 * l.toNat % 2 ^ 64 := by
  simp [lengthField]

theorem blockCount_pos (n : Nat) : 0 < blockCount n := by simp [blockCount]

end Sys2Proof.Machine
end

