-- ==== Sys2Proof/Laws/Blocks.lean ====
section
/-! SUPPORT. What each array operation leaves in each element. -/

namespace Sys2Proof.Machine

theorem copyBytes_getElem (s : State) (base n j : Nat) (h : j < 64) :
    (copyBytes s base n)[j] = if j < n then (s.readMsg (base + j)).getD s.BLK[j] else s.BLK[j] := by
  simp [copyBytes]

theorem putLength_getElem (blk : Vector Byte 64) (lf : DWord) (j : Nat) (h : j < 64) :
    (putLength blk lf)[j] = if 56 ≤ j then byteOf64 lf (j - 56) else blk[j] := by
  simp [putLength]

theorem unpackInto_getElem (blk : Vector Byte 64) (w : Vector Word 64) (j : Nat) (h : j < 64) :
    (unpackInto blk w)[j] = if hj : j < 16 then blockWord blk j hj else w[j] := by
  simp [unpackInto]

theorem foldState_getElem (h v : Vector Word 8) (j : Nat) (hj : j < 8) :
    (foldState h v)[j] = h[j] + v[j] := by
  simp [foldState]

theorem digestBytes_getElem (h : Vector Word 8) (p : Nat) (hp : p < 32) :
    (digestBytes h)[p] = byteOf (h[p / 4]'(by omega)) (p % 4) := by
  simp [digestBytes]

theorem blockAt_getElem (p : List Byte) (i j : Nat) (h : j < 64) :
    (blockAt p i)[j] = p.getD (64 * i + j) 0x00#8 := by
  simp [blockAt]

end Sys2Proof.Machine
end

