-- ==== Sys2Proof/Laws/State.lean ====
section
/-! SUPPORT. One lemma per field per named update of State, so that no later proof unfolds one. -/

namespace Sys2Proof.Machine

/-! ## addFault -/

@[simp] theorem State.addFault_H (s : State) (f : FaultRec) : (s.addFault f).H = s.H := rfl
@[simp] theorem State.addFault_WV (s : State) (f : FaultRec) : (s.addFault f).WV = s.WV := rfl
@[simp] theorem State.addFault_BLK (s : State) (f : FaultRec) : (s.addFault f).BLK = s.BLK := rfl
@[simp] theorem State.addFault_W (s : State) (f : FaultRec) : (s.addFault f).W = s.W := rfl
@[simp] theorem State.addFault_L (s : State) (f : FaultRec) : (s.addFault f).L = s.L := rfl
@[simp] theorem State.addFault_N (s : State) (f : FaultRec) : (s.addFault f).N = s.N := rfl
@[simp] theorem State.addFault_i (s : State) (f : FaultRec) : (s.addFault f).i = s.i := rfl
@[simp] theorem State.addFault_t (s : State) (f : FaultRec) : (s.addFault f).t = s.t := rfl
@[simp] theorem State.addFault_phase (s : State) (f : FaultRec) : (s.addFault f).phase = s.phase := rfl
@[simp] theorem State.addFault_padInserted (s : State) (f : FaultRec) : (s.addFault f).padInserted = s.padInserted := rfl
@[simp] theorem State.addFault_lenWritten (s : State) (f : FaultRec) : (s.addFault f).lenWritten = s.lenWritten := rfl
@[simp] theorem State.addFault_DOUT (s : State) (f : FaultRec) : (s.addFault f).DOUT = s.DOUT := rfl
@[simp] theorem State.addFault_doutWritten (s : State) (f : FaultRec) : (s.addFault f).doutWritten = s.doutWritten := rfl
@[simp] theorem State.addFault_LEN_LO (s : State) (f : FaultRec) : (s.addFault f).LEN_LO = s.LEN_LO := rfl
@[simp] theorem State.addFault_LEN_HI (s : State) (f : FaultRec) : (s.addFault f).LEN_HI = s.LEN_HI := rfl
@[simp] theorem State.addFault_MSG (s : State) (f : FaultRec) : (s.addFault f).MSG = s.MSG := rfl
@[simp] theorem State.addFault_faults (s : State) (f : FaultRec) : (s.addFault f).faults = if f ∈ s.faults then s.faults else s.faults ++ [f] := rfl
@[simp] theorem State.addFault_msgCap (s : State) (f : FaultRec) : (s.addFault f).msgCap = s.msgCap := rfl
@[simp] theorem State.addFault_rdata (s : State) (f : FaultRec) : (s.addFault f).rdata = s.rdata := rfl
@[simp] theorem State.addFault_turns (s : State) (f : FaultRec) : (s.addFault f).turns = s.turns := rfl

/-! ## respond -/

@[simp] theorem State.respond_H (s : State) (v : Word) : (s.respond v).H = s.H := rfl
@[simp] theorem State.respond_WV (s : State) (v : Word) : (s.respond v).WV = s.WV := rfl
@[simp] theorem State.respond_BLK (s : State) (v : Word) : (s.respond v).BLK = s.BLK := rfl
@[simp] theorem State.respond_W (s : State) (v : Word) : (s.respond v).W = s.W := rfl
@[simp] theorem State.respond_L (s : State) (v : Word) : (s.respond v).L = s.L := rfl
@[simp] theorem State.respond_N (s : State) (v : Word) : (s.respond v).N = s.N := rfl
@[simp] theorem State.respond_i (s : State) (v : Word) : (s.respond v).i = s.i := rfl
@[simp] theorem State.respond_t (s : State) (v : Word) : (s.respond v).t = s.t := rfl
@[simp] theorem State.respond_phase (s : State) (v : Word) : (s.respond v).phase = s.phase := rfl
@[simp] theorem State.respond_padInserted (s : State) (v : Word) : (s.respond v).padInserted = s.padInserted := rfl
@[simp] theorem State.respond_lenWritten (s : State) (v : Word) : (s.respond v).lenWritten = s.lenWritten := rfl
@[simp] theorem State.respond_DOUT (s : State) (v : Word) : (s.respond v).DOUT = s.DOUT := rfl
@[simp] theorem State.respond_doutWritten (s : State) (v : Word) : (s.respond v).doutWritten = s.doutWritten := rfl
@[simp] theorem State.respond_LEN_LO (s : State) (v : Word) : (s.respond v).LEN_LO = s.LEN_LO := rfl
@[simp] theorem State.respond_LEN_HI (s : State) (v : Word) : (s.respond v).LEN_HI = s.LEN_HI := rfl
@[simp] theorem State.respond_MSG (s : State) (v : Word) : (s.respond v).MSG = s.MSG := rfl
@[simp] theorem State.respond_faults (s : State) (v : Word) : (s.respond v).faults = s.faults := rfl
@[simp] theorem State.respond_msgCap (s : State) (v : Word) : (s.respond v).msgCap = s.msgCap := rfl
@[simp] theorem State.respond_rdata (s : State) (v : Word) : (s.respond v).rdata = some v := rfl
@[simp] theorem State.respond_turns (s : State) (v : Word) : (s.respond v).turns = s.turns := rfl

/-! ## writeMsg -/

@[simp] theorem State.writeMsg_H (s : State) (a : Nat) (v : Byte) : (s.writeMsg a v).H = s.H := rfl
@[simp] theorem State.writeMsg_WV (s : State) (a : Nat) (v : Byte) : (s.writeMsg a v).WV = s.WV := rfl
@[simp] theorem State.writeMsg_BLK (s : State) (a : Nat) (v : Byte) : (s.writeMsg a v).BLK = s.BLK := rfl
@[simp] theorem State.writeMsg_W (s : State) (a : Nat) (v : Byte) : (s.writeMsg a v).W = s.W := rfl
@[simp] theorem State.writeMsg_L (s : State) (a : Nat) (v : Byte) : (s.writeMsg a v).L = s.L := rfl
@[simp] theorem State.writeMsg_N (s : State) (a : Nat) (v : Byte) : (s.writeMsg a v).N = s.N := rfl
@[simp] theorem State.writeMsg_i (s : State) (a : Nat) (v : Byte) : (s.writeMsg a v).i = s.i := rfl
@[simp] theorem State.writeMsg_t (s : State) (a : Nat) (v : Byte) : (s.writeMsg a v).t = s.t := rfl
@[simp] theorem State.writeMsg_phase (s : State) (a : Nat) (v : Byte) : (s.writeMsg a v).phase = s.phase := rfl
@[simp] theorem State.writeMsg_padInserted (s : State) (a : Nat) (v : Byte) : (s.writeMsg a v).padInserted = s.padInserted := rfl
@[simp] theorem State.writeMsg_lenWritten (s : State) (a : Nat) (v : Byte) : (s.writeMsg a v).lenWritten = s.lenWritten := rfl
@[simp] theorem State.writeMsg_DOUT (s : State) (a : Nat) (v : Byte) : (s.writeMsg a v).DOUT = s.DOUT := rfl
@[simp] theorem State.writeMsg_doutWritten (s : State) (a : Nat) (v : Byte) : (s.writeMsg a v).doutWritten = s.doutWritten := rfl
@[simp] theorem State.writeMsg_LEN_LO (s : State) (a : Nat) (v : Byte) : (s.writeMsg a v).LEN_LO = s.LEN_LO := rfl
@[simp] theorem State.writeMsg_LEN_HI (s : State) (a : Nat) (v : Byte) : (s.writeMsg a v).LEN_HI = s.LEN_HI := rfl
@[simp] theorem State.writeMsg_MSG (s : State) (a : Nat) (v : Byte) : (s.writeMsg a v).MSG = Mem.write s.MSG a v := rfl
@[simp] theorem State.writeMsg_faults (s : State) (a : Nat) (v : Byte) : (s.writeMsg a v).faults = s.faults := rfl
@[simp] theorem State.writeMsg_msgCap (s : State) (a : Nat) (v : Byte) : (s.writeMsg a v).msgCap = s.msgCap := rfl
@[simp] theorem State.writeMsg_rdata (s : State) (a : Nat) (v : Byte) : (s.writeMsg a v).rdata = s.rdata := rfl
@[simp] theorem State.writeMsg_turns (s : State) (a : Nat) (v : Byte) : (s.writeMsg a v).turns = s.turns := rfl

/-! ## resetEvent: the fields that keep their value; the others are those of `State.resetOf` -/

@[simp] theorem State.resetEvent_msgCap (s : State) : s.resetEvent.msgCap = s.msgCap := rfl
@[simp] theorem State.resetEvent_turns (s : State) : s.resetEvent.turns = s.turns := rfl
@[simp] theorem State.resetEvent_phase (s : State) : s.resetEvent.phase = Phase.idle := rfl
@[simp] theorem State.resetEvent_MSG (s : State) : s.resetEvent.MSG = [] := rfl
@[simp] theorem State.resetEvent_faults (s : State) : s.resetEvent.faults = [] := rfl
@[simp] theorem State.resetEvent_doutWritten (s : State) : s.resetEvent.doutWritten = false := rfl
@[simp] theorem State.resetEvent_LEN_LO (s : State) : s.resetEvent.LEN_LO = 0#32 := rfl
@[simp] theorem State.resetEvent_LEN_HI (s : State) : s.resetEvent.LEN_HI = 0#32 := rfl

end Sys2Proof.Machine
end

