-- ==== Sys2Proof/Laws/Memory.lean ====
section
/-! SUPPORT. The laws of message memory: a byte written is read back, every other byte stays, and the canonical form is
kept. -/

namespace Sys2Proof.Machine

theorem Mem.read_write_same (m : List Host.Cell) (x : Nat) (v : Byte) :
    Mem.read (Mem.write m x v) x = some v := by
  induction m with
  | nil => simp [Mem.write, Mem.read]
  | cons c m ih =>
    obtain ⟨a, b⟩ := c
    simp only [Mem.write]
    split
    · simp [Mem.read]
    · split
      · simp [Mem.read, *]
      · simp [Mem.read, *]

theorem Mem.read_write_other (m : List Host.Cell) {x y : Nat} (v : Byte) (hne : y ≠ x) :
    Mem.read (Mem.write m x v) y = Mem.read m y := by
  induction m with
  | nil => simp [Mem.write, Mem.read, hne]
  | cons c m ih =>
    obtain ⟨a, b⟩ := c
    simp only [Mem.write]
    split
    · simp [Mem.read, hne]
    · split
      · next h => subst h; simp [Mem.read, hne]
      · simp [Mem.read, ih]

theorem Mem.read_write (m : List Host.Cell) (x y : Nat) (v : Byte) :
    Mem.read (Mem.write m x v) y = if y = x then some v else Mem.read m y := by
  split
  · next h => rw [h, Mem.read_write_same]
  · next h => exact Mem.read_write_other m v h

/-- What a write lists: the written cell, and cells that were listed before. -/
theorem Mem.mem_write {m : List Host.Cell} {x : Nat} {v : Byte} {c : Host.Cell}
    (h : c ∈ Mem.write m x v) : c = (x, v) ∨ c ∈ m := by
  induction m with
  | nil => simpa [Mem.write] using h
  | cons d m ih =>
    obtain ⟨a, b⟩ := d
    simp only [Mem.write] at h
    split at h
    · simpa using h
    · split at h
      · rcases List.mem_cons.1 h with h | h
        · left; simp_all
        · right; exact List.mem_cons_of_mem _ h
      · rcases List.mem_cons.1 h with h | h
        · right; simp [h]
        · exact (ih h).imp_right (List.mem_cons_of_mem _)

theorem Mem.wf_write {m : List Host.Cell} (x : Nat) (v : Byte) (h : Mem.wf m) :
    Mem.wf (Mem.write m x v) := by
  induction m with
  | nil => simp [Mem.write, Mem.wf]
  | cons d m ih =>
    obtain ⟨a, b⟩ := d
    obtain ⟨hd, ht⟩ := List.pairwise_cons.1 h
    simp only [Mem.write]
    split
    · next hx =>
      refine List.pairwise_cons.2 ⟨fun c hc => ?_, h⟩
      rcases List.mem_cons.1 hc with rfl | hc
      · exact hx
      · exact Nat.lt_trans hx (hd c hc)
    · split
      · exact List.pairwise_cons.2 ⟨hd, ht⟩
      · next h1 h2 =>
        refine List.pairwise_cons.2 ⟨fun c hc => ?_, ih ht⟩
        rcases Mem.mem_write hc with rfl | hc
        · show a < x; omega
        · exact hd c hc

/-- The byte of any address after a byte of MSG is written at an address that exists. -/
theorem State.readMsg_writeMsg (s : State) {a : Nat} (v : Byte) (ha : a < s.msgCap) (b : Nat) :
    (s.writeMsg a v).readMsg b = if b = a then some v else s.readMsg b := by
  simp only [State.readMsg, State.writeMsg_msgCap, State.writeMsg_MSG, Mem.read_write]
  by_cases h : b = a
  · simp [h, ha]
  · simp [h]

/-- The message memory of a state reads by its MSG and its capacity alone. -/
theorem State.readMsg_congr {s t : State} (hm : t.MSG = s.MSG) (hc : t.msgCap = s.msgCap) (a : Nat) :
    t.readMsg a = s.readMsg a := by
  simp [State.readMsg, hm, hc]

theorem State.resetOf_readMsg (cap a : Nat) : (State.resetOf cap).readMsg a = none := by
  simp [State.readMsg, State.resetOf, Mem.read]

theorem State.reset_wf : Mem.wf State.reset.MSG := List.Pairwise.nil

/-- `lowestUnwritten` answers the lowest unwritten address of its range. -/
theorem State.lowestUnwritten_eq_some {s : State} {base n a : Nat}
    (h : s.lowestUnwritten base n = some a) :
    base ≤ a ∧ a < base + n ∧ s.readMsg a = none ∧
      ∀ b, base ≤ b → b < a → (s.readMsg b).isSome := by
  simp only [State.lowestUnwritten, List.find?_map, Option.map_eq_some_iff] at h
  obtain ⟨k, hk, rfl⟩ := h
  rw [List.find?_range_eq_some] at hk
  obtain ⟨hk1, hk2, hk3⟩ := hk
  refine ⟨by omega, by simp at hk2; omega, by simpa using hk1, fun b hb hba => ?_⟩
  have := hk3 (b - base) (by omega)
  rw [Function.comp, show base + (b - base) = b by omega] at this
  simpa [Option.isSome_iff_ne_none] using this

/-- `lowestUnwritten` answers none exactly when every byte of its range has been written. -/
theorem State.lowestUnwritten_eq_none {s : State} {base n : Nat} :
    s.lowestUnwritten base n = none ↔ ∀ k < n, (s.readMsg (base + k)).isSome := by
  simp only [State.lowestUnwritten, List.find?_map, Option.map_eq_none_iff, List.find?_eq_none,
    List.mem_range, Function.comp]
  simp [Option.isSome_iff_ne_none]

end Sys2Proof.Machine
end

