-- ==== Sys2Proof/Laws/Faults.lean ====
section
/-! SUPPORT. The laws of the fault record: it is a set that only grows, and what raising a fault does (60_exceptions R232). -/

namespace Sys2Proof.Machine

theorem State.mem_addFault (s : State) (f g : FaultRec) :
    g ∈ (s.addFault f).faults ↔ g ∈ s.faults ∨ g = f := by
  rw [State.addFault_faults]
  split
  · next h => exact ⟨Or.inl, fun hg => hg.elim id (fun e => e ▸ h)⟩
  · simp

/-- A fault already in the record changes nothing. -/
theorem State.addFault_of_mem {s : State} {f : FaultRec} (h : f ∈ s.faults) : s.addFault f = s := by
  simp [State.addFault, h]

theorem State.addFault_nodup {s : State} (f : FaultRec) (h : s.faults.Nodup) :
    (s.addFault f).faults.Nodup := by
  rw [State.addFault_faults]
  split
  · exact h
  · next hf =>
    rw [List.nodup_append]
    exact ⟨h, by simp, fun a ha b hb => by rintro rfl; simp at hb; exact hf (hb ▸ ha)⟩

theorem State.addFault_coreStopped (s : State) (f : FaultRec) :
    (s.addFault f).coreStopped = (s.coreStopped || f.isCore) := by
  rw [Bool.eq_iff_iff]
  simp only [State.coreStopped, List.any_eq_true, Bool.or_eq_true, State.mem_addFault]
  constructor
  · rintro ⟨g, hg | rfl, hc⟩
    · exact .inl ⟨g, hg, hc⟩
    · exact .inr hc
  · rintro (⟨g, hg, hc⟩ | hc)
    · exact ⟨g, .inl hg, hc⟩
    · exact ⟨f, .inr rfl, hc⟩

@[simp] theorem State.addFault_busy (s : State) (f : FaultRec) : (s.addFault f).busy = s.busy := rfl

/-- All that `raise` does: one next state, with the fault in the record and everything else as it was. -/
theorem State.raise_spec (s : State) (f : FaultRec) :
    ∃ t, s.raise f = .next t ∧ Recorded f s t :=
  ⟨s.addFault f, rfl, s.mem_addFault f, rfl⟩

/-- All that a read's `raise` does. -/
theorem State.raiseRead_spec (s : State) (f : FaultRec) :
    ∃ t, s.raiseRead f = .next t ∧ RecordedByRead f s t :=
  ⟨{ s.addFault f with rdata := none }, rfl, s.mem_addFault f, rfl⟩

end Sys2Proof.Machine
end

