-- ==== Sys2Proof/Laws/Step.lean ====
section
/-! SUPPORT. What a step can do, said once: it resets, it lets a stopped core's turn pass, or it runs one instruction. -/

namespace Sys2Proof.Machine

/-- The state a turn leaves to its agent: the tape without its head. -/
abbrev State.tail (s : State) : State := { s with turns := s.turns.tail }

/-- All that `fetch` can answer. -/
theorem fetch_cases (s : State) :
    (∃ ts, s.turns = .reset :: ts ∧ fetch s = .only s.tail.resetEvent) ∨
    (∃ r ts, s.turns = .host r :: ts ∧ fetch s = .instr (decodeRequest r) s.tail) ∨
    ((s.turns = [] ∨ ∃ ts, s.turns = .core :: ts) ∧ s.coreStopped = true ∧ fetch s = .only s.tail) ∨
    ((s.turns = [] ∨ ∃ ts, s.turns = .core :: ts) ∧ s.coreStopped = false ∧
      fetch s = .instr (decodePhase s.phase) s.tail) := by
  cases h : s.turns with
  | nil =>
    have e : s.tail = s := by cases s; simp_all
    cases hc : s.coreStopped
    · exact .inr (.inr (.inr ⟨.inl rfl, rfl, by simp [fetch, h, fetchCore, hc, decode, e]⟩))
    · exact .inr (.inr (.inl ⟨.inl rfl, rfl, by simp [fetch, h, fetchCore, hc, e]⟩))
  | cons u ts =>
    have e : s.tail = { s with turns := ts } := by simp [h]
    rw [e]
    cases u with
    | core =>
      cases hc : s.coreStopped
      · refine .inr (.inr (.inr ⟨.inr ⟨ts, rfl⟩, rfl, ?_⟩))
        simp_all [fetch, fetchCore, State.coreStopped, decode]
      · refine .inr (.inr (.inl ⟨.inr ⟨ts, rfl⟩, rfl, ?_⟩))
        simp_all [fetch, fetchCore, State.coreStopped]
    | host r => exact .inr (.inl ⟨r, ts, rfl, by simp [fetch, h, decode]⟩)
    | reset => exact .inl ⟨ts, rfl, by simp [fetch, h]⟩

/-- All that a step can do. -/
theorem step_cases (s : State) :
    (∃ ts, s.turns = .reset :: ts ∧ step s = .next s.tail.resetEvent) ∨
    (∃ r ts, s.turns = .host r :: ts ∧ step s = exec (decodeRequest r) s.tail) ∨
    ((s.turns = [] ∨ ∃ ts, s.turns = .core :: ts) ∧ s.coreStopped = true ∧ step s = .next s.tail) ∨
    ((s.turns = [] ∨ ∃ ts, s.turns = .core :: ts) ∧ s.coreStopped = false ∧
      step s = exec (decodePhase s.phase) s.tail) := by
  rcases fetch_cases s with ⟨ts, h, e⟩ | ⟨r, ts, h, e⟩ | ⟨h, hc, e⟩ | ⟨h, hc, e⟩
  · exact .inl ⟨ts, h, by simp [step, e]⟩
  · exact .inr (.inl ⟨r, ts, h, by simp [step, e]⟩)
  · exact .inr (.inr (.inl ⟨h, hc, by simp [step, e]⟩))
  · exact .inr (.inr (.inr ⟨h, hc, by simp [step, e]⟩))

/-- A host transaction decodes to a row of the host's map. -/
theorem decodeRequest_isCore (r : HostReq) : (decodeRequest r).isCore = false := by
  unfold decodeRequest decodeRegRead decodeRegWrite
  repeat' split
  all_goals rfl

/-- A phase code decodes to a micro-operation. -/
theorem decodePhase_isCore (c : BitVec 4) : (decodePhase c).isCore = true := by
  revert c
  decide

/-- One step of a run, then the rest. -/
theorem run_succ {s t : State} (k : Nat) (h : step s = .next t) : run (k + 1) s = run k t := by
  simp only [run, h]

/-- A run that has come to a next state goes on from there. -/
theorem run_add {s t : State} (j k : Nat) (h : run j s = .next t) : run (j + k) s = run k t := by
  induction j generalizing s with
  | zero =>
    have e : s = t := by simpa [run] using h
    rw [Nat.zero_add, e]
  | succ j ih =>
    rw [Nat.succ_add]
    cases hs : step s with
    | next u =>
      rw [run_succ _ hs] at h ⊢
      exact ih h
    | fault r => simp [run, hs] at h
    | refused r => simp [run, hs] at h

end Sys2Proof.Machine
end

