-- ==== Sys2Proof/Laws/Exec.lean ====
section
/-! SUPPORT. The next state of each micro-operation and message transaction whose meaning has a case, one lemma per
case, and what each phase code decodes to: later proofs cite these and unfold no meaning. -/

namespace Sys2Proof.Machine

/-! ## What a phase selects -/

theorem decodePhase_idle : decodePhase Phase.idle = .idle := rfl
theorem decodePhase_init : decodePhase Phase.init = .init := rfl
theorem decodePhase_fmtZero : decodePhase Phase.fmtZero = .fmtZero := rfl
theorem decodePhase_fmtCopy : decodePhase Phase.fmtCopy = .fmtCopy := rfl
theorem decodePhase_fmtPad : decodePhase Phase.fmtPad = .fmtPad := rfl
theorem decodePhase_fmtLen : decodePhase Phase.fmtLen = .fmtLen := rfl
theorem decodePhase_unpack : decodePhase Phase.unpack = .unpack := rfl
theorem decodePhase_expand : decodePhase Phase.expand = .expand := rfl
theorem decodePhase_loadWv : decodePhase Phase.loadWv = .loadWv := rfl
theorem decodePhase_round : decodePhase Phase.round = .round := rfl
theorem decodePhase_fold : decodePhase Phase.fold = .fold := rfl
theorem decodePhase_next : decodePhase Phase.next = .next := rfl
theorem decodePhase_final : decodePhase Phase.final = .final := rfl
theorem decodePhase_done : decodePhase Phase.done = .done := rfl
theorem decodePhase_rsvdE : decodePhase Phase.rsvdE = .rsvdE := rfl
theorem decodePhase_rsvdF : decodePhase Phase.rsvdF = .rsvdF := rfl

/-! ## The cases of the micro-operations -/

theorem exec_init_of_fits {s : State} (h : s.LEN.toNat ≤ s.msgCap) :
    exec .init s = .next { s with
      L := s.LEN, H := ivRom, N := blockCount s.LEN.toNat, i := 0
      padInserted := false, lenWritten := false, phase := Phase.fmtZero } :=
  if_neg (Nat.not_lt.2 h)

theorem exec_init_of_overrun {s : State} (h : s.msgCap < s.LEN.toNat) :
    exec .init s = .next (s.addFault (.msgOverrun s.LEN)) :=
  if_pos h

theorem exec_fmtCopy_of_written {s : State} (h : s.lowestUnwritten (64 * s.i) s.copyCount = none) :
    exec .fmtCopy s
      = .next { s with BLK := copyBytes s (64 * s.i) s.copyCount, phase := Phase.fmtPad } := by
  simp only [exec, execFmtCopy, h]

theorem exec_fmtCopy_of_unwritten {s : State} {a : Nat}
    (h : s.lowestUnwritten (64 * s.i) s.copyCount = some a) :
    exec .fmtCopy s = .next (s.addFault (.unwrittenMsg .core a)) := by
  simp only [exec, execFmtCopy, h, State.raise]

theorem exec_fmtPad_of_inserts {s : State} (h : s.padNow = true) (hr : 0 ≤ s.rem ∧ s.rem < 64) :
    exec .fmtPad s = .next { s with
      BLK := s.BLK.set s.rem.toNat 0x80#8 (by omega), padInserted := true, phase := Phase.fmtLen } := by
  simp only [exec, execFmtPad, h, if_true, dif_pos hr]

theorem exec_fmtPad_of_skips {s : State} (h : s.padNow = false) :
    exec .fmtPad s = .next { s with phase := Phase.fmtLen } := by
  simp only [exec, execFmtPad, h, Bool.false_eq_true, if_false]

theorem exec_fmtLen_of_writes {s : State} (h : s.lenNow = true) :
    exec .fmtLen s = .next { s with
      BLK := putLength s.BLK (lengthField s.L), lenWritten := true, phase := Phase.unpack } := by
  simp only [exec, execFmtLen, h, if_true]

theorem exec_fmtLen_of_skips {s : State} (h : s.lenNow = false) :
    exec .fmtLen s = .next { s with phase := Phase.unpack } := by
  simp only [exec, execFmtLen, h, Bool.false_eq_true, if_false]

theorem exec_expand_of_position {s : State} (h : 16 ≤ s.t ∧ s.t < 64) :
    exec .expand s = .next { s with
      W := s.W.set s.t (scheduleWord s.W s.t h) h.2, t := s.t + 1
      phase := if s.t + 1 = 64 then Phase.loadWv else Phase.expand } := by
  simp only [exec, execExpand, dif_pos h]

theorem exec_round_of_position {s : State} (h : s.t < 64) :
    exec .round s = .next { s with
      WV := roundStep s.WV kRom[s.t] s.W[s.t], t := s.t + 1
      phase := if s.t + 1 = 64 then Phase.fold else Phase.round } := by
  simp only [exec, execRound, dif_pos h]

/-! ## The cases of the host transactions -/

theorem exec_wrMsg_of_range {s : State} {idx : BitVec 4} {a : Nat} {data : Word} (h : a < s.msgCap) :
    exec (.wrMsg idx a data) s = .next (s.writeMsg a (dataByte data)) :=
  if_neg (Nat.not_le.2 h)

theorem exec_wrMsg_of_outside {s : State} {idx : BitVec 4} {a : Nat} {data : Word} (h : s.msgCap ≤ a) :
    exec (.wrMsg idx a data) s = .next (s.addFault (.msgRange a)) :=
  if_pos h

theorem exec_rdMsg_of_outside {s : State} {idx : BitVec 4} {a : Nat} (h : s.msgCap ≤ a) :
    exec (.rdMsg idx a) s = .next { s.addFault (.msgRange a) with rdata := none } :=
  if_pos h

theorem exec_rdMsg_of_unwritten {s : State} {idx : BitVec 4} {a : Nat} (h : a < s.msgCap)
    (hr : s.readMsg a = none) :
    exec (.rdMsg idx a) s = .next { s.addFault (.unwrittenMsg .host a) with rdata := none } := by
  simp only [exec, execRdMsg, if_neg (Nat.not_le.2 h), hr, State.raiseRead]

theorem State.lt_of_readMsg {s : State} {a : Nat} {b : Byte} (h : s.readMsg a = some b) :
    a < s.msgCap := by
  simp only [State.readMsg] at h
  split at h
  · assumption
  · cases h

theorem exec_rdMsg_of_written {s : State} {idx : BitVec 4} {a : Nat} {b : Byte}
    (h : s.readMsg a = some b) : exec (.rdMsg idx a) s = .next (s.respond (zext32 b)) := by
  simp only [exec, execRdMsg, if_neg (Nat.not_le.2 (State.lt_of_readMsg h)), h]

theorem exec_rdDigest_of_written {s : State} {j : BitVec 3} (h : s.doutWritten = true) :
    exec (.rdDigest j) s = .next (s.respond (digestWord s.DOUT j)) :=
  if_pos h

theorem exec_rdDigest_of_unwritten {s : State} {j : BitVec 3} (h : s.doutWritten = false) :
    exec (.rdDigest j) s = .next { s.addFault (.doutUnwritten j) with rdata := none } := by
  simp only [exec, execRdDigest, h, Bool.false_eq_true, if_false, State.raiseRead]

/-! ## One turn of a core that is not stopped -/

/-- With the tape exhausted, a step is the micro-operation of the phase. -/
theorem step_of_core {s : State} (ht : s.turns = []) (hc : s.coreStopped = false) :
    step s = exec (decodePhase s.phase) s := by
  simp [step, fetch, ht, fetchCore, hc, decode]

end Sys2Proof.Machine
end

