-- ==== Sys2Proof/Laws/PerInstr.lean ====
section
/-! SUPPORT. The per-instruction law EncodesInItsRow: the encoded form of an instruction matches its own row of R82's
table, or is its own phase code of R85. -/

namespace Sys2Proof.Laws.EncodesInItsRow

/-- The OP of the encoded form matches the row of the instruction's mnemonic and of no other (R82); a micro-operation is
encoded in the phase space (R85). -/
def Statement (i : Instr) : Prop :=
  ∀ aw : Nat, match encode aw i with
    | .request r => ∃ n, i.hostRow = some n ∧
        ∀ k row, hostRows[k]? = some row → (row.hits r.op = true ↔ k = n)
    | .phase _ => i.hostRow = none

/-- A fixed OP hits exactly row n. -/
def hitsOnly (op : BitVec 6) (n : Nat) : Bool :=
  (List.range hostRows.length).all fun k =>
    match hostRows[k]? with
    | some row => row.hits op == decide (k = n)
    | none => true

theorem of_hitsOnly {op : BitVec 6} {n : Nat} (h : hitsOnly op n = true) (k : Nat) (row : OpRow)
    (hk : hostRows[k]? = some row) : row.hits op = true ↔ k = n := by
  have hlt : k < hostRows.length := (List.getElem?_eq_some_iff.1 hk).1
  have := List.all_eq_true.1 h k (List.mem_range.2 hlt)
  simp only [hk, beq_iff_eq] at this
  rw [this, decide_eq_true_iff]

theorem rdCtrl : Statement (.rdCtrl) :=
  fun _ => ⟨_, rfl, of_hitsOnly (by decide)⟩

theorem rdStatus : Statement (.rdStatus) :=
  fun _ => ⟨_, rfl, of_hitsOnly (by decide)⟩

theorem rdLenLo : Statement (.rdLenLo) :=
  fun _ => ⟨_, rfl, of_hitsOnly (by decide)⟩

theorem rdLenHi : Statement (.rdLenHi) :=
  fun _ => ⟨_, rfl, of_hitsOnly (by decide)⟩

theorem rdRsvd (k : BitVec 2) : Statement (.rdRsvd k) :=
  have h : ∀ k : BitVec 2, hitsOnly (0b0001#4 ++ k) 4 = true := by decide
  fun _ => ⟨_, rfl, of_hitsOnly (h k)⟩

theorem rdDigest (j : BitVec 3) : Statement (.rdDigest j) :=
  have h : ∀ j : BitVec 3, hitsOnly (0b001#3 ++ j) 5 = true := by decide
  fun _ => ⟨_, rfl, of_hitsOnly (h j)⟩

theorem wrCtrl (data : Word) : Statement (.wrCtrl data) :=
  have h : hitsOnly 0x10#6 6 = true := by decide
  fun _ => ⟨_, rfl, of_hitsOnly h⟩

theorem wrStatus (data : Word) : Statement (.wrStatus data) :=
  have h : hitsOnly 0x11#6 7 = true := by decide
  fun _ => ⟨_, rfl, of_hitsOnly h⟩

theorem wrLenLo (data : Word) : Statement (.wrLenLo data) :=
  have h : hitsOnly 0x12#6 8 = true := by decide
  fun _ => ⟨_, rfl, of_hitsOnly h⟩

theorem wrLenHi (data : Word) : Statement (.wrLenHi data) :=
  have h : hitsOnly 0x13#6 9 = true := by decide
  fun _ => ⟨_, rfl, of_hitsOnly h⟩

theorem wrRsvd (k : BitVec 2) (data : Word) : Statement (.wrRsvd k data) :=
  have h : ∀ k : BitVec 2, hitsOnly (0b0101#4 ++ k) 10 = true := by decide
  fun _ => ⟨_, rfl, of_hitsOnly (h k)⟩

theorem wrDigest (j : BitVec 3) (data : Word) : Statement (.wrDigest j data) :=
  have h : ∀ j : BitVec 3, hitsOnly (0b011#3 ++ j) 11 = true := by decide
  fun _ => ⟨_, rfl, of_hitsOnly (h j)⟩

theorem rdMsg (idx : BitVec 4) (addr : Nat) : Statement (.rdMsg idx addr) :=
  have h : ∀ idx : BitVec 4, hitsOnly (0b10#2 ++ idx) 12 = true := by decide
  fun _ => ⟨_, rfl, of_hitsOnly (h idx)⟩

theorem wrMsg (idx : BitVec 4) (addr : Nat) (data : Word) : Statement (.wrMsg idx addr data) :=
  have h : ∀ idx : BitVec 4, hitsOnly (0b11#2 ++ idx) 13 = true := by decide
  fun _ => ⟨_, rfl, of_hitsOnly (h idx)⟩

theorem idle : Statement .idle := fun _ => rfl

theorem init : Statement .init := fun _ => rfl

theorem fmtZero : Statement .fmtZero := fun _ => rfl

theorem fmtCopy : Statement .fmtCopy := fun _ => rfl

theorem fmtPad : Statement .fmtPad := fun _ => rfl

theorem fmtLen : Statement .fmtLen := fun _ => rfl

theorem unpack : Statement .unpack := fun _ => rfl

theorem expand : Statement .expand := fun _ => rfl

theorem loadWv : Statement .loadWv := fun _ => rfl

theorem round : Statement .round := fun _ => rfl

theorem fold : Statement .fold := fun _ => rfl

theorem next : Statement .next := fun _ => rfl

theorem final : Statement .final := fun _ => rfl

theorem done : Statement .done := fun _ => rfl

theorem rsvdE : Statement .rsvdE := fun _ => rfl

theorem rsvdF : Statement .rsvdF := fun _ => rfl

end Sys2Proof.Laws.EncodesInItsRow
end

