-- ==== Sys2Proof/Tests/Slice0.lean ====
section
/-! SUPPORT. Tests of the model against the words and the vectors of the spec (30_encoding, 95_test_vectors), and a
witness for the hypotheses of every obligation that has some. Expected values are the spec's, never the model's. -/

namespace Sys2Proof.Tests

open Sys2Proof Sys2Proof.Machine

/-- What `f` says of the next state; none where the machine stops. -/
def got {α : Type} (f : State → α) : Host.Outcome State Fault Refusal → Option α
  | .next t => some (f t)
  | .fault _ => none
  | .refused _ => none

/-- The fault a meaning stops with, if it does. -/
def stop : Host.Outcome State Fault Refusal → Option Fault
  | .next _ => none
  | .fault f => some f
  | .refused _ => none

/-- The start state of 95_test_vectors: reset, MSG_CAP = 64. -/
def fresh : State := State.resetOf 64

/-- "abc" written at MSG[0..2] and LEN = 3 (95_test_vectors P2). -/
def abc : State := { fresh with MSG := [(0, 0x61#8), (1, 0x62#8), (2, 0x63#8)], LEN_LO := 3#32 }

/-- The same run after INIT, at a phase and a round counter. -/
def abcAt (phase : BitVec 4) (t : Nat) : State := { abc with L := 3#64, N := 1, H := ivRom, phase := phase, t := t }

/-- The same once its block is formatted. -/
def abcFormatted (phase : BitVec 4) (t : Nat) : State :=
  { abcAt phase t with padInserted := true, lenWritten := true }

/-- P5 after its one core step: a core stopped by MSG_OVERRUN. -/
def overrun : State := { fresh with LEN_LO := 65#32, phase := Phase.init, faults := [.msgOverrun 65#64] }

/-- A host transaction as a turn. -/
def ask (op : BitVec 6) (addr : Nat) (data : Word) : Turn := .host ⟨op, addr, data⟩

/-! ## Encodings -/

/-- An address beyond MSG_AW bits, and an operand in a field the format leaves absent, are refused (R80, R89). -/
theorem test_wellFormed_refuses :
    (Instr.rdMsg 0#4 64).wellFormed 6 = false ∧ (Instr.wrMsg 0#4 64 0#32).wellFormed 6 = false ∧
    (Instr.rdMsg 0#4 63).wellFormed 6 = true ∧ (Instr.wrMsg 0#4 63 0#32).wellFormed 6 = true ∧
    HostReq.wellFormed 6 ⟨0x20#6, 64, 0#32⟩ = false ∧ HostReq.wellFormed 6 ⟨0x10#6, 1, 0#32⟩ = false ∧
    HostReq.wellFormed 6 ⟨0x01#6, 0, 1#32⟩ = false ∧ HostReq.wellFormed 6 ⟨0x30#6, 63, 1#32⟩ = true := by decide

/-- A bare word with a bit above its code is rejected by name (log entry 9). -/
theorem test_tableWord_rejects :
    readTableWord 8 0x40 = .error .bitsAboveTheCode ∧ readTableWord 4 0x10 = .error .bitsAboveTheCode ∧
    decodeTableWord 8 0x80 = none := by decide

/-- The register reads of R82, by the bits S W IDX. -/
theorem test_decode_register_reads :
    decodeRequest ⟨0b000000#6, 0, 0#32⟩ = .rdCtrl ∧ decodeRequest ⟨0b000001#6, 0, 0#32⟩ = .rdStatus ∧
    decodeRequest ⟨0b000010#6, 0, 0#32⟩ = .rdLenLo ∧ decodeRequest ⟨0b000011#6, 0, 0#32⟩ = .rdLenHi ∧
    decodeRequest ⟨0b000100#6, 0, 0#32⟩ = .rdRsvd 0#2 ∧ decodeRequest ⟨0b000111#6, 0, 0#32⟩ = .rdRsvd 3#2 ∧
    decodeRequest ⟨0b001000#6, 0, 0#32⟩ = .rdDigest 0#3 ∧
    decodeRequest ⟨0b001111#6, 0, 0#32⟩ = .rdDigest 7#3 := by decide

/-- The register writes of R82. -/
theorem test_decode_register_writes :
    decodeRequest ⟨0b010000#6, 0, 1#32⟩ = .wrCtrl 1#32 ∧ decodeRequest ⟨0b010001#6, 0, 2#32⟩ = .wrStatus 2#32 ∧
    decodeRequest ⟨0b010010#6, 0, 3#32⟩ = .wrLenLo 3#32 ∧ decodeRequest ⟨0b010011#6, 0, 4#32⟩ = .wrLenHi 4#32 ∧
    decodeRequest ⟨0b010100#6, 0, 5#32⟩ = .wrRsvd 0#2 5#32 ∧
    decodeRequest ⟨0b010111#6, 0, 6#32⟩ = .wrRsvd 3#2 6#32 ∧
    decodeRequest ⟨0b011000#6, 0, 7#32⟩ = .wrDigest 0#3 7#32 ∧
    decodeRequest ⟨0b011111#6, 0, 8#32⟩ = .wrDigest 7#3 8#32 := by decide

/-- The message transactions of R82, and the encoded forms 95_test_vectors L3 gives. -/
theorem test_decode_message :
    decodeRequest ⟨0b100000#6, 5, 0#32⟩ = .rdMsg 0#4 5 ∧ decodeRequest ⟨0b101111#6, 5, 0#32⟩ = .rdMsg 15#4 5 ∧
    decodeRequest ⟨0b110000#6, 2, 0x63#32⟩ = .wrMsg 0#4 2 0x63#32 ∧
    encode 6 (.wrMsg 0#4 2 0x63#32) = .request ⟨0x30#6, 2, 0x00000063#32⟩ ∧
    encode 6 (.wrLenLo 3#32) = .request ⟨0x12#6, 0, 3#32⟩ ∧
    encode 6 (.rdDigest 7#3) = .request ⟨0x0F#6, 0, 0#32⟩ := by decide

/-- The phase codes of R85. -/
theorem test_decode_phases :
    decodePhase 0b0000#4 = .idle ∧ decodePhase 0b0001#4 = .init ∧ decodePhase 0b0010#4 = .fmtZero ∧
    decodePhase 0b0011#4 = .fmtCopy ∧ decodePhase 0b0100#4 = .fmtPad ∧ decodePhase 0b0101#4 = .fmtLen ∧
    decodePhase 0b0110#4 = .unpack ∧ decodePhase 0b0111#4 = .expand ∧ decodePhase 0b1000#4 = .loadWv ∧
    decodePhase 0b1001#4 = .round ∧ decodePhase 0b1010#4 = .fold ∧ decodePhase 0b1011#4 = .next ∧
    decodePhase 0b1100#4 = .final ∧ decodePhase 0b1101#4 = .done ∧ decodePhase 0b1110#4 = .rsvdE ∧
    decodePhase 0b1111#4 = .rsvdF := by decide

/-! ## The step -/

/-- A phase code placed for fetching runs as the first instruction after reset; so does a transaction. -/
theorem test_placed_from_reset :
    got (·.phase) (step (State.reset.withFetchWord 8 0x02)) = some 0x3#4 ∧
    got (·.t) (step (State.reset.withFetchWord 8 0x07)) = some 17 ∧
    got (·.LEN_LO) (step (State.reset.withFetchWord 8 0x12)) = some 0#32 ∧
    got (·.faults) (step (State.reset.withFetchWord 8 0x20)) = some [.unwrittenMsg .host 0] := by decide

/-- A stopped core has no step, a host turn goes on, and a reset ends the run (R190, R232, R260). -/
theorem test_stopped_core :
    got (·.phase) (step { abc with phase := Phase.init, faults := [.msgOverrun 65#64], turns := [.core] })
      = some Phase.init ∧
    got (·.rdata) (step { abc with phase := Phase.init, faults := [.msgOverrun 65#64], turns := [ask 0x01#6 0 0#32] })
      = some (some 1#32) ∧
    got (fun t => (t.phase, t.faults, t.MSG)) (step
      { abc with phase := Phase.init, faults := [.msgOverrun 65#64], turns := [.reset] })
      = some (0x0#4, [], []) := by decide

/-! ## Host transactions (V6, V7) -/

theorem test_rdCtrl : got (·.rdata) (exec .rdCtrl (abcAt Phase.round 5)) = some (some 0#32) := by decide

theorem test_rdStatus :
    got (·.rdata) (exec .rdStatus (abcAt Phase.round 5)) = some (some 1#32) ∧
    got (·.rdata) (exec .rdStatus (abcAt Phase.done 64)) = some (some 2#32) ∧
    got (·.rdata) (exec .rdStatus fresh) = some (some 0#32) := by decide

/-- "the host register, not the latched L" (R209). -/
theorem test_rdLenLo :
    got (·.rdata) (exec .rdLenLo { abcAt Phase.fmtCopy 0 with LEN_LO := 0#32 }) = some (some 0#32) ∧
    got (·.rdata) (exec .rdLenLo { fresh with LEN_LO := 0xFFFFFFFF#32 }) = some (some 0xFFFFFFFF#32) := by decide

theorem test_rdLenHi :
    got (·.rdata) (exec .rdLenHi { fresh with LEN_LO := 1#32, LEN_HI := 2#32 }) = some (some 2#32) := by decide

theorem test_rdRsvd : got (·.rdata) (exec (.rdRsvd 3#2) (abcAt Phase.done 64)) = some (some 0#32) := by decide

/-- DIGEST0 and DIGEST1 of "abc" (P2). -/
theorem test_rdDigest :
    got (·.rdata) (exec (.rdDigest 0#3) { fresh with
      DOUT := #v[0xBA, 0x78, 0x16, 0xBF, 0x8F, 0x01, 0xCF, 0xEA, 0, 0, 0, 0, 0, 0, 0, 0,
                 0, 0, 0, 0, 0, 0, 0, 0, 0, 0, 0, 0, 0xF2, 0x00, 0x15, 0xAD], doutWritten := true })
      = some (some 0xBA7816BF#32) ∧
    got (·.rdata) (exec (.rdDigest 7#3) { fresh with
      DOUT := #v[0xBA, 0x78, 0x16, 0xBF, 0x8F, 0x01, 0xCF, 0xEA, 0, 0, 0, 0, 0, 0, 0, 0,
                 0, 0, 0, 0, 0, 0, 0, 0, 0, 0, 0, 0, 0xF2, 0x00, 0x15, 0xAD], doutWritten := true })
      = some (some 0xF20015AD#32) := by decide

theorem test_rdDigest_before_any_run :
    got (fun t => (t.rdata, t.faults)) (exec (.rdDigest 0#3) fresh) = some (none, [.doutUnwritten 0#3]) := by decide

/-- START from IDLE and from DONE; a START while busy and a write with DATA[0] = 0 have no effect. -/
theorem test_wrCtrl :
    got (·.phase) (exec (.wrCtrl 1#32) fresh) = some 0x1#4 ∧
    got (·.phase) (exec (.wrCtrl 0xFFFFFFFF#32) (abcAt Phase.done 64)) = some 0x1#4 ∧
    got (·.phase) (exec (.wrCtrl 1#32) (abcAt Phase.fmtCopy 0)) = some 0x3#4 ∧
    got (·.phase) (exec (.wrCtrl 2#32) fresh) = some 0x0#4 := by decide

theorem test_wrStatus : got (·.status) (exec (.wrStatus 3#32) fresh) = some 0#32 := by decide

theorem test_wrLenLo :
    got (fun t => (t.LEN_LO, t.LEN_HI)) (exec (.wrLenLo 0xFFFFFFFF#32) { fresh with LEN_HI := 7#32 })
      = some (0xFFFFFFFF#32, 7#32) := by decide

theorem test_wrLenHi :
    got (·.LEN) (exec (.wrLenHi 1#32) { fresh with LEN_LO := 3#32 }) = some 0x0000000100000003#64 := by decide

theorem test_wrRsvd :
    got id (exec (.wrRsvd 1#2 0xFFFFFFFF#32) abc) = some abc := by decide

theorem test_wrDigest :
    got (·.DOUT[0]) (exec (.wrDigest 0#3 0xFFFFFFFF#32) { fresh with doutWritten := true }) = some 0#8 := by decide

/-- zext_32, not a sign extension; OP[3:0] has no part (R83, R86). -/
theorem test_rdMsg :
    got (·.rdata) (exec (.rdMsg 9#4 5) { fresh with MSG := [(5, 0xFE#8)] }) = some (some 0x000000FE#32) := by decide

theorem test_rdMsg_faults :
    got (fun t => (t.rdata, t.faults)) (exec (.rdMsg 0#4 5) fresh) = some (none, [.unwrittenMsg .host 5]) ∧
    got (·.faults) (exec (.rdMsg 0#4 64) fresh) = some [.msgRange 64] := by decide

/-- DATA[7:0] alone is stored. -/
theorem test_wrMsg :
    got (fun t => (t.readMsg 0, t.readMsg 1, t.readMsg 2)) (exec (.wrMsg 0#4 1 0xAABBCC64#32) abc)
      = some (some 0x61#8, some 0x64#8, some 0x63#8) := by decide

theorem test_wrMsg_range :
    got (fun t => (t.MSG, t.faults)) (exec (.wrMsg 0#4 64 0x61#32) fresh) = some ([], [.msgRange 64]) := by decide

/-! ## Control (V6, V7) -/

theorem test_idle : got id (exec .idle fresh) = some fresh := by decide

theorem test_done : got id (exec .done (abcAt Phase.done 64)) = some (abcAt Phase.done 64) := by decide

/-- LEN = MSG_CAP is accepted (P4): N = 2, H = IV. -/
theorem test_init :
    got (fun t => (t.L, t.N, t.H[0], t.phase)) (exec .init { fresh with LEN_LO := 64#32, i := 9 })
      = some (64#64, 2, 0x6A09E667#32, 0x2#4) := by decide

/-- P5: LEN = 65 above a capacity of 64. -/
theorem test_init_overrun :
    got (fun t => (t.L, t.phase, t.faults, t.coreStopped)) (exec .init { fresh with LEN_LO := 65#32, phase := Phase.init })
      = some (0#64, 0x1#4, [.msgOverrun 65#64], true) ∧
    got (·.faults) (exec .init { fresh with LEN_HI := 1#32 }) = some [.msgOverrun 0x100000000#64] := by decide

theorem test_next :
    got (fun t => (t.i, t.phase)) (exec .next { fresh with i := 0, N := 2 }) = some (1, 0x2#4) ∧
    got (fun t => (t.i, t.phase)) (exec .next { fresh with i := 1, N := 2 }) = some (2, 0xC#4) := by decide

theorem test_rsvdE :
    got (fun t => (t.phase, t.faults, t.coreStopped)) (exec .rsvdE { fresh with phase := 0xE#4 })
      = some (0xE#4, [.rsvdPhase 0xE#4], true) := by decide

theorem test_rsvdF :
    got (fun t => (t.phase, t.faults, t.coreStopped)) (exec .rsvdF { fresh with phase := 0xF#4 })
      = some (0xF#4, [.rsvdPhase 0xF#4], true) := by decide

/-! ## The padder (V1) -/

/-- Column N of V1 and of its corner cases. -/
theorem test_blockCount :
    [0, 1, 54, 55, 56, 63, 64, 65, 119, 120, 127, 128, 1337].map blockCount
      = [1, 1, 1, 1, 2, 2, 2, 2, 2, 3, 3, 3, 22] ∧
    blockCount (2 ^ 61 - 1) = 36028797018963969 ∧ blockCount (2 ^ 64 - 1) = 288230376151711745 := by decide

theorem test_lengthField :
    lengthField 1337#64 = 0x29C8#64 ∧ lengthField 0x2000000000000000#64 = 0#64 ∧
    lengthField 0xFFFFFFFFFFFFFFFF#64 = 0xFFFFFFFFFFFFFFF8#64 := by decide

theorem test_fmtZero :
    got (·.BLK) (exec .fmtZero { fresh with BLK := Vector.replicate 64 0xFF#8 })
      = some (Vector.replicate 64 0x00#8) := by decide

theorem test_fmtCopy :
    got (fun t => (t.BLK.toList.take 5, t.phase)) (exec .fmtCopy (abcAt Phase.fmtCopy 0))
      = some ([0x61, 0x62, 0x63, 0, 0], 0x4#4) := by decide

/-- V7: "ab" only, LEN 3. -/
theorem test_fmtCopy_unwritten :
    got (fun t => (t.faults, t.phase, t.BLK)) (exec .fmtCopy
      { abcAt Phase.fmtCopy 0 with MSG := [(0, 0x61#8), (1, 0x62#8)] })
      = some ([.unwrittenMsg .core 2], 0x3#4, Vector.replicate 64 0x00#8) := by decide

theorem test_fmtPad :
    got (fun t => (t.BLK[2], t.BLK[3], t.BLK[4], t.padInserted)) (exec .fmtPad (abcAt Phase.fmtPad 0))
      = some (0#8, 0x80#8, 0#8, true) := by decide

/-- P4, block 0: rem = 64 is not < 64. -/
theorem test_fmtPad_full_block :
    got (fun t => (t.BLK, t.padInserted)) (exec .fmtPad { fresh with L := 64#64, N := 2 })
      = some (Vector.replicate 64 0x00#8, false) := by decide

/-- V1: the deferred-length block of L = 56. -/
theorem test_fmtLen :
    got (fun t => (t.BLK.toList.drop 56, t.lenWritten))
      (exec .fmtLen { fresh with L := 56#64, N := 2, i := 1, padInserted := true })
      = some ([0, 0, 0, 0, 0, 0, 0x01, 0xC0], true) := by decide

/-- E4: L = 56 leaves no room in block 0, L = 55 does. -/
theorem test_fmtLen_boundary :
    got (·.lenWritten) (exec .fmtLen { fresh with L := 56#64, N := 2, padInserted := true }) = some false ∧
    got (fun t => (t.lenWritten, t.BLK[62], t.BLK[63]))
      (exec .fmtLen { fresh with L := 55#64, N := 1, padInserted := true }) = some (true, 0x01#8, 0xB8#8) := by decide

/-- V1: the block of "abc" as words. -/
theorem test_unpack :
    got (fun t => (t.W[0], t.W[1], t.W[15], t.t)) (exec .unpack
      { fresh with BLK := ((((Vector.replicate 64 0#8).set 0 0x61#8).set 1 0x62#8 |>.set 2 0x63#8).set 3 0x80#8).set 63 0x18#8 })
      = some (0x61626380#32, 0#32, 0x18#32, 16) := by decide

/-! ## Functions and ROMs (V2) -/

theorem test_sigmas :
    [sigma0 0x12345678#32, sigma1 0x12345678#32, bigSigma0 0x12345678#32, bigSigma1 0x12345678#32]
      = [0xE7FCE6EE#32, 0xA1F78649#32, 0x66146474#32, 0x3561ABDA#32] ∧
    [sigma0 1#32, sigma1 1#32, bigSigma0 1#32, bigSigma1 1#32]
      = [0x02004000#32, 0x0000A000#32, 0x40080400#32, 0x04200080#32] := by decide

theorem test_rotr_shr_ch_maj :
    rotr 25 0x80000000#32 = 0x00000040#32 ∧ rotr 2 3#32 = 0xC0000000#32 ∧ shr 3 7#32 = 0#32 ∧
    ch 0xF0F0F0F0#32 0xAAAAAAAA#32 0x55555555#32 = 0xA5A5A5A5#32 ∧
    maj 0xF0F0F0F0#32 0xCCCCCCCC#32 0xAAAAAAAA#32 = 0xE8E8E8E8#32 := by decide

/-- R140: "the first 32 bits of the fractional parts of the cube roots of the first 64 prime numbers". -/
theorem test_kRom_is_cube_roots :
    (kRom.toList.zip [2, 3, 5, 7, 11, 13, 17, 19, 23, 29, 31, 37, 41, 43, 47, 53, 59, 61, 67, 71, 73, 79, 83, 89, 97,
      101, 103, 107, 109, 113, 127, 131, 137, 139, 149, 151, 157, 163, 167, 173, 179, 181, 191, 193, 197, 199, 211, 223,
      227, 229, 233, 239, 241, 251, 257, 263, 269, 271, 277, 281, 283, 293, 307, 311]).all (fun (k, p) =>
      (List.range 7).any fun q =>
        (q * 2 ^ 32 + k.toNat) ^ 3 ≤ p * 2 ^ 96 && p * 2 ^ 96 < (q * 2 ^ 32 + k.toNat + 1) ^ 3) = true := by decide

/-- R141: the square roots of the first 8. -/
theorem test_ivRom_is_square_roots :
    (ivRom.toList.zip [2, 3, 5, 7, 11, 13, 17, 19]).all (fun (v, p) =>
      (List.range 5).any fun q =>
        (q * 2 ^ 32 + v.toNat) ^ 2 ≤ p * 2 ^ 64 && p * 2 ^ 64 < (q * 2 ^ 32 + v.toNat + 1) ^ 2) = true := by decide

/-! ## Schedule, compressor and digest (V3, V4, V5) -/

/-- V3: all words ffffffff; W[17] of "abc"; the loop's exit at t = 63. -/
theorem test_expand :
    got (fun t => (t.W[16], t.t, t.phase)) (exec .expand
      { fresh with t := 16, W := Vector.replicate 64 0xFFFFFFFF#32 }) = some (0x203FFFFC#32, 17, 0x7#4) ∧
    got (·.W[17]) (exec .expand { fresh with t := 17, W := (Vector.replicate 64 0#32).set 15 0x18#32 })
      = some 0x000F0000#32 := by decide

theorem test_expand_leaves :
    got (fun t => (t.t, t.phase)) (exec .expand { fresh with t := 63 }) = some (64, 0x8#4) := by decide

theorem test_loadWv :
    got (fun t => (t.WV, t.t, t.phase)) (exec .loadWv (abcFormatted Phase.loadWv 64)) = some (ivRom, 0, 0x9#4) := by
  decide

/-- V4: round 0 of "abc", and the corner case of all ones. -/
theorem test_round :
    got (fun t => (t.WV, t.phase)) (exec .round
      { fresh with WV := ivRom, W := (Vector.replicate 64 0#32).set 0 0x61626380#32 })
      = some (#v[0x5D6AEBCD#32, 0x6A09E667#32, 0xBB67AE85#32, 0x3C6EF372#32,
                 0xFA2A4622#32, 0x510E527F#32, 0x9B05688C#32, 0x1F83D9AB#32], 0x9#4) ∧
    got (fun t => (t.WV[0], t.WV[4])) (exec .round
      { fresh with WV := Vector.replicate 8 0xFFFFFFFF#32, W := Vector.replicate 64 0xFFFFFFFF#32 })
      = some (0x428A2F92#32, 0x428A2F93#32) := by decide

/-- V4: round 63 of "abc", W[63] of V3. -/
theorem test_round_last :
    got (fun t => (t.WV, t.t, t.phase)) (exec .round
      { fresh with
        WV := #v[0xD39A2165#32, 0x04D24D6C#32, 0xB85E2CE9#32, 0xB6AE8FFF#32,
                 0xFB121210#32, 0x948D25B6#32, 0x961F4894#32, 0xB21BAD3D#32]
        W := (Vector.replicate 64 0#32).set 63 0x12B1EDEB#32, t := 63 })
      = some (#v[0x506E3058#32, 0xD39A2165#32, 0x04D24D6C#32, 0xB85E2CE9#32,
                 0x5EF50F24#32, 0xFB121210#32, 0x948D25B6#32, 0x961F4894#32], 64, 0xA#4) := by decide

/-- V5: the fold of "abc". -/
theorem test_fold :
    got (·.H) (exec .fold { fresh with
      H := ivRom
      WV := #v[0x506E3058#32, 0xD39A2165#32, 0x04D24D6C#32, 0xB85E2CE9#32,
               0x5EF50F24#32, 0xFB121210#32, 0x948D25B6#32, 0x961F4894#32] })
      = some #v[0xBA7816BF#32, 0x8F01CFEA#32, 0x414140DE#32, 0x5DAE2223#32,
                0xB00361A3#32, 0x96177A9C#32, 0xB410FF61#32, 0xF20015AD#32] := by decide

theorem test_final :
    got (fun t => (t.DOUT.toList.take 8, t.doutWritten, t.phase)) (exec .final { fresh with
      H := #v[0xBA7816BF#32, 0x8F01CFEA#32, 0#32, 0#32, 0#32, 0#32, 0#32, 0xF20015AD#32] })
      = some ([0xBA, 0x78, 0x16, 0xBF, 0x8F, 0x01, 0xCF, 0xEA], true, 0xD#4) := by decide

/-- E2: SHA-256 of "abc", by the pure functions the machine's steps are compared with. -/
theorem test_sha256_abc :
    sha256 [0x61#8, 0x62#8, 0x63#8]
      = #v[0xBA, 0x78, 0x16, 0xBF, 0x8F, 0x01, 0xCF, 0xEA, 0x41, 0x41, 0x40, 0xDE, 0x5D, 0xAE, 0x22, 0x23,
           0xB0, 0x03, 0x61, 0xA3, 0x96, 0x17, 0x7A, 0x9C, 0xB4, 0x10, 0xFF, 0x61, 0xF2, 0x00, 0x15, 0xAD] := by
  decide +kernel

/-! ## Witnesses: states and operands that meet each obligation's hypotheses -/

theorem witness_DecodeInvertsEncode :
    (Instr.wrMsg 15#4 255 0xFFFFFFFF#32).wellFormed 8 = true ∧ (Instr.rdMsg 0#4 0).wellFormed 0 = true ∧
    (Instr.wrDigest 7#3 0xFFFFFFFF#32).wellFormed 0 = true := by decide

theorem witness_EncodeInvertsDecode :
    (Encoded.request ⟨0x3F#6, 255, 0xFFFFFFFF#32⟩).wellFormed 8 = true ∧
    (Encoded.request ⟨0x0F#6, 0, 0#32⟩).wellFormed 0 = true ∧ (Encoded.phase 0xF#4).wellFormed 0 = true := by decide

theorem witness_FieldsWithoutMeaningAreIgnored :
    (0x1F#6).getLsbD 5 = false ∧ (0x2F#6).getLsbD 4 = false ∧
    (0x1FF#32).toNat % 256 = (0xFF#32).toNat % 256 ∧ (0xFFFFFFFF#32).getLsbD 0 = (1#32).getLsbD 0 := by decide

theorem witness_StepRunsTheTurn :
    ({ abc with turns := [ask 0x10#6 0 1#32] } : State).turns = .host ⟨0x10#6, 0, 1#32⟩ :: [] ∧
    (({ abc with turns := [.core, .reset] } : State).turns = .core :: [.reset] ∧ abc.coreStopped = false) ∧
    ({ abc with faults := [.rsvdPhase 0xE#4], turns := [.core] } : State).coreStopped = true ∧
    abc.turns = [] ∧ ({ abc with faults := [.rsvdPhase 0xE#4] } : State).coreStopped = true ∧
    ({ abc with turns := [.reset] } : State).turns = .reset :: [] := by decide

theorem witness_PlacedWordRunsNext :
    decodeTableWord 8 0x3F = some (.wrMsg 15#4 0 0#32) ∧ decodeTableWord 8 0x07 = some .expand ∧
    decodeTableWord 6 0x0F = some (.rdDigest 7#3) := by decide

theorem witness_ResetAbandonsTheRun :
    ({ abcAt Phase.round 9 with turns := [.reset, .core] } : State).turns = .reset :: [.core] := by decide

/-- The last EXPAND of "abc" and its FINAL meet the invariant, and step. -/
theorem witness_StepKeepsInvariant :
    ((abcFormatted Phase.expand 63).Inv ∧ got (·.phase) (step (abcFormatted Phase.expand 63)) = some 0x8#4) ∧
    ({ abcFormatted Phase.final 64 with i := 1 } : State).Inv ∧
    got (·.phase) (step { abcFormatted Phase.final 64 with i := 1 }) = some 0xD#4 := by
  refine ⟨⟨⟨?_, ?_, ?_, ?_, ?_, ?_⟩, ?_⟩, ⟨?_, ?_, ?_, ?_, ?_, ?_⟩, ?_⟩ <;> decide

/-- A core stopped by an overrun meets the invariant too. -/
theorem witness_InvariantStatesAlwaysStep :
    overrun.Inv ∧
    (abcAt Phase.fmtPad 0).Inv := by
  refine ⟨⟨?_, ?_, ?_, ?_, ?_, ?_⟩, ?_, ?_, ?_, ?_, ?_, ?_⟩ <;> decide

theorem witness_StepKeepsMessageForm :
    ({ abc with turns := [ask 0x30#6 63 0xAA#32] } : State).MessageOk ∧
    got (·.readMsg 63) (step { abc with turns := [ask 0x30#6 63 0xAA#32] }) = some (some 0xAA#8) := by decide

theorem witness_StepKeepsCapacity :
    got (·.msgCap) (step { abc with msgCap := 9, turns := [.reset] }) = some 9 := by decide

theorem witness_StepNeverEntersReservedPhase :
    (abcFormatted Phase.done 64).phase ≠ 0xE#4 ∧ (abcFormatted Phase.done 64).phase ≠ 0xF#4 ∧
    got (·.phase) (step { abcFormatted Phase.done 64 with turns := [ask 0x10#6 0 1#32] }) = some 0x1#4 := by decide

theorem witness_FaultRecordOnlyGrows :
    (∀ ts, ({ abc with faults := [.msgRange 64], turns := [ask 0x20#6 9 0#32] } : State).turns ≠ .reset :: ts) ∧
    got (·.faults) (step { abc with faults := [.msgRange 64], turns := [ask 0x20#6 9 0#32] })
      = some [.msgRange 64, .unwrittenMsg .host 9] :=
  ⟨fun _ h => (by cases h), by decide⟩

/-- P5's last START. -/
theorem witness_StoppedCoreStaysStopped :
    ({ overrun with turns := [ask 0x10#6 0 1#32] } : State).coreStopped = true ∧
    ({ overrun with turns := [ask 0x10#6 0 1#32] } : State).busy = true ∧
    (∀ ts, ({ overrun with turns := [ask 0x10#6 0 1#32] } : State).turns ≠ .reset :: ts) ∧
    got (·.phase) (step { overrun with turns := [ask 0x10#6 0 1#32] }) = some 0x1#4 :=
  ⟨by decide, by decide, fun _ h => (by cases h), by decide⟩

theorem witness_OnlyStartLeavesIdleOrDone :
    (({ fresh with turns := [ask 0x12#6 0 1#32] } : State).busy = false ∧
      (∀ u, ({ fresh with turns := [ask 0x12#6 0 1#32] } : State).turns.head? = some u → u ≠ .reset ∧ u.isStart = false) ∧
      got (·.phase) (step { fresh with turns := [ask 0x12#6 0 1#32] }) = some 0x0#4) ∧
    (abcAt Phase.done 64).busy = false ∧
    (∀ u, (abcAt Phase.done 64).turns.head? = some u → u ≠ .reset ∧ u.isStart = false) ∧
    got (·.phase) (step (abcAt Phase.done 64)) = some 0xD#4 := by
  refine ⟨⟨by decide, ?_, by decide⟩, by decide, ?_, by decide⟩
  · rintro u ⟨⟩
    decide
  · rintro u ⟨⟩

/-- A host turn at FINAL, a core turn elsewhere, and a stopped core at FINAL. -/
theorem witness_OnlyFinalWritesDigest :
    ((∀ ts, ({ abcAt Phase.final 64 with turns := [ask 0x18#6 0 1#32] } : State).turns ≠ .reset :: ts) ∧
      (∃ r ts, ({ abcAt Phase.final 64 with turns := [ask 0x18#6 0 1#32] } : State).turns = .host r :: ts) ∧
      got (·.doutWritten) (step { abcAt Phase.final 64 with turns := [ask 0x18#6 0 1#32] }) = some false) ∧
    ((∀ ts, (abcAt Phase.fold 64).turns ≠ .reset :: ts) ∧ (abcAt Phase.fold 64).phase ≠ Phase.final ∧
      got (·.doutWritten) (step (abcAt Phase.fold 64)) = some false) ∧
    (∀ ts, ({ abcAt Phase.final 64 with faults := [.rsvdPhase 0xE#4] } : State).turns ≠ .reset :: ts) ∧
    ({ abcAt Phase.final 64 with faults := [.rsvdPhase 0xE#4] } : State).coreStopped = true ∧
    got (·.doutWritten) (step { abcAt Phase.final 64 with faults := [.rsvdPhase 0xE#4] }) = some false :=
  ⟨⟨fun _ h => (by cases h), ⟨_, _, rfl⟩, by decide⟩, ⟨fun _ h => (by cases h), by decide, by decide⟩,
    fun _ h => (by cases h), by decide, by decide⟩

theorem witness_CoreFrame :
    Instr.isCore .fmtCopy = true ∧ got (·.phase) (exec .fmtCopy (abcAt Phase.fmtCopy 0)) = some 0x4#4 ∧
    Instr.isCore .init = true ∧ got (·.faults) (exec .init { abc with LEN_HI := 1#32 })
      = some [.msgOverrun 0x100000003#64] := by decide

theorem witness_HostFrame :
    (Instr.wrCtrl 1#32).isCore = false ∧ got (·.phase) (exec (.wrCtrl 1#32) abc) = some 0x1#4 ∧
    (Instr.wrMsg 0#4 9 1#32).isCore = false ∧ got (·.readMsg 9) (exec (.wrMsg 0#4 9 1#32) abc) = some (some 1#8) := by
  decide

theorem witness_RepeatedTransactionChangesNothing :
    Instr.isCore .rdLenLo = false ∧ Instr.isRead .rdLenLo = true ∧
    got (·.rdata) (exec .rdLenLo abc) = some (some 3#32) ∧
    (Instr.rdMsg 0#4 9).isRead = true ∧ got (·.rdata) (exec (.rdMsg 0#4 9) abc) = some none := by decide

/-- Each stop, at the value next to the last position that runs. -/
theorem witness_ExecStopsOnlyWhereNoElementExists :
    stop (exec .expand { fresh with t := 15 }) = some .expandIndex ∧
    stop (exec .expand { fresh with t := 64 }) = some .expandIndex ∧
    stop (exec .round { fresh with t := 64 }) = some .roundIndex ∧
    (stop (exec .fmtPad { fresh with L := 63#64, i := 1 }) = some .padIndex ∧
      got (·.phase) (exec .fmtPad { fresh with L := 64#64, i := 1 }) = some 0x5#4) := by decide

theorem witness_StartBeginsARunUnlessBusy :
    ((1#32).getLsbD 0 = true ∧ fresh.phase = 0x0#4 ∧ (abcAt Phase.done 64).phase = 0xD#4) ∧
    ¬((1#32).getLsbD 0 = true ∧ ((abcAt Phase.init 0).phase = 0x0#4 ∨ (abcAt Phase.init 0).phase = 0xD#4)) ∧
    ¬((0xFFFFFFFE#32).getLsbD 0 = true ∧ (fresh.phase = 0x0#4 ∨ fresh.phase = 0xD#4)) := by decide

theorem witness_DigestReadsBigEndian :
    (7 < 8 ∧ ({ fresh with doutWritten := true } : State).doutWritten = true) ∧ 0 < 8 ∧ fresh.doutWritten = false := by
  decide

theorem witness_WriteMsgStoresOneByte : 63 < fresh.msgCap ∧ 0 < fresh.msgCap ∧ fresh.msgCap ≤ 64 := by decide

theorem witness_ReadMsgReturnsTheByte :
    abc.readMsg 2 = some 0x63#8 ∧ abc.msgCap ≤ 64 ∧ (63 < abc.msgCap ∧ abc.readMsg 63 = none) ∧
    3 < abc.msgCap ∧ abc.readMsg 3 = none := by decide

theorem witness_WrittenByteReadsBack : 0 < abc.msgCap ∧ 63 < abc.msgCap := by decide

theorem witness_InitStartsARunUnlessTooLong :
    ({ fresh with LEN_LO := 64#32 } : State).LEN_HI.toNat * 2 ^ 32 + ({ fresh with LEN_LO := 64#32 } : State).LEN_LO.toNat
      ≤ ({ fresh with LEN_LO := 64#32 } : State).msgCap ∧
    overrun.msgCap < overrun.LEN_HI.toNat * 2 ^ 32 + overrun.LEN_LO.toNat ∧
    ({ fresh with LEN_HI := 1#32 } : State).msgCap
      < ({ fresh with LEN_HI := 1#32 } : State).LEN_HI.toNat * 2 ^ 32 + ({ fresh with LEN_HI := 1#32 } : State).LEN_LO.toNat := by
  decide

/-- The most zero bits (L = 56), and the greatest 64-bit length. -/
theorem witness_BlockCountFormsAgree :
    (511 < 512 ∧ (8 * 56 + 1 + 511) % 512 = 448) ∧ (447 < 512 ∧ (8 * 0 + 1 + 447) % 512 = 448) ∧
    2 ^ 64 - 1 < 2 ^ 64 := by decide

theorem witness_PaddedMessageShape :
    0 < (padded []).length ∧ 63 < (padded [0x61#8, 0x62#8, 0x63#8]).length ∧
    (padded [0x61#8, 0x62#8, 0x63#8])[63]? = some 0x18#8 := by decide

/-- Three bytes, no byte, a block past the end, and two of three bytes written. -/
theorem witness_FmtCopyCopiesTheMessage :
    (∀ j, j < min ((abcAt Phase.fmtCopy 0).L.toNat - 64 * 0) 64 → ((abcAt Phase.fmtCopy 0).readMsg (64 * 0 + j)).isSome) ∧
    (∀ j, j < min (fresh.L.toNat - 64 * 0) 64 → (fresh.readMsg (64 * 0 + j)).isSome) ∧
    (∀ j, j < min (({ abcAt Phase.fmtCopy 0 with i := 1 } : State).L.toNat - 64 * 1) 64 →
      (({ abcAt Phase.fmtCopy 0 with i := 1 } : State).readMsg (64 * 1 + j)).isSome) ∧
    2 < min (({ fresh with L := 3#64, MSG := [(0, 0x61#8), (1, 0x62#8)] } : State).L.toNat - 64 * 0) 64 ∧
    ({ fresh with L := 3#64, MSG := [(0, 0x61#8), (1, 0x62#8)] } : State).readMsg (64 * 0 + 2) = none ∧
    (∀ k, k < 2 →
      (({ fresh with L := 3#64, MSG := [(0, 0x61#8), (1, 0x62#8)] } : State).readMsg (64 * 0 + k)).isSome) := by decide

theorem witness_FmtPadInsertsOneByte :
    ((abcAt Phase.fmtPad 0).padInserted = false ∧ (abcAt Phase.fmtPad 0).L.toNat = 64 * (abcAt Phase.fmtPad 0).i + 3 ∧
      3 < 64) ∧
    (({ fresh with L := 127#64, i := 1 } : State).padInserted = false ∧
      ({ fresh with L := 127#64, i := 1 } : State).L.toNat = 64 * 1 + 63 ∧ 63 < 64) ∧
    (abcFormatted Phase.fmtPad 0).padInserted = true ∧ 64 * 0 + 64 ≤ ({ fresh with L := 64#64 } : State).L.toNat := by decide

theorem witness_FmtLenWritesTheBitLength :
    (({ fresh with L := 55#64, padInserted := true } : State).padInserted = true ∧
      ({ fresh with L := 55#64, padInserted := true } : State).lenWritten = false ∧
      ({ fresh with L := 55#64, padInserted := true } : State).L.toNat ≤ 64 * 0 + 55) ∧
    ¬(({ fresh with L := 56#64, padInserted := true } : State).padInserted = true ∧
      ({ fresh with L := 56#64, padInserted := true } : State).lenWritten = false ∧
      ({ fresh with L := 56#64, padInserted := true } : State).L.toNat ≤ 64 * 0 + 55) := by decide

theorem witness_RotateAndShiftBits : (0 < 1 ∧ 1 < 32) ∧ (0 < 31 ∧ 31 < 32) := by decide

theorem witness_LogicalFunctionsBitByBit : 0 < 32 ∧ 31 < 32 := by decide

theorem witness_ExpandComputesOneWord :
    (16 ≤ (abcFormatted Phase.expand 16).t ∧ (abcFormatted Phase.expand 16).t < 64) ∧
    16 ≤ (abcFormatted Phase.expand 63).t ∧ (abcFormatted Phase.expand 63).t < 64 := by decide

theorem witness_ExpandRunCompletesTheSchedule :
    (abcFormatted Phase.expand 16).phase = Phase.expand ∧ (abcFormatted Phase.expand 16).t = 16 ∧
    (abcFormatted Phase.expand 16).turns = [] ∧ (abcFormatted Phase.expand 16).coreStopped = false := by decide

theorem witness_RoundIsTheParallelAssignment :
    (abcFormatted Phase.round 0).t < 64 ∧ (abcFormatted Phase.round 63).t < 64 := by decide

theorem witness_RoundRunComposesSixtyFourRounds :
    (abcFormatted Phase.round 0).phase = Phase.round ∧ (abcFormatted Phase.round 0).t = 0 ∧
    (abcFormatted Phase.round 0).turns = [] ∧ (abcFormatted Phase.round 0).coreStopped = false := by decide

theorem witness_FinalSerialisesBigEndian : 7 < 8 ∧ 3 < 4 ∧ 0 < 8 ∧ 0 < 4 := by decide

theorem witness_FormattedBlockIsThePaddedMessage :
    (abcAt Phase.fmtZero 0).phase = Phase.fmtZero ∧ (abcAt Phase.fmtZero 0).turns = [] ∧
    (abcAt Phase.fmtZero 0).coreStopped = false ∧ (abcAt Phase.fmtZero 0).BeforePad ∧
    (abcAt Phase.fmtZero 0).L.toNat = [0x61#8, 0x62#8, 0x63#8].length ∧
    Holds (abcAt Phase.fmtZero 0) [0x61#8, 0x62#8, 0x63#8] := by decide

/-- "abc", and the empty message. -/
theorem witness_UninterruptedRunHashesTheMessage :
    (({ abc with phase := Phase.init } : State).phase = Phase.init ∧ ({ abc with phase := Phase.init } : State).turns = [] ∧
      ({ abc with phase := Phase.init } : State).coreStopped = false ∧
      ({ abc with phase := Phase.init } : State).LEN.toNat = [0x61#8, 0x62#8, 0x63#8].length ∧
      [0x61#8, 0x62#8, 0x63#8].length ≤ ({ abc with phase := Phase.init } : State).msgCap ∧
      Holds { abc with phase := Phase.init } [0x61#8, 0x62#8, 0x63#8]) ∧
    ({ State.resetOf 0 with phase := Phase.init } : State).LEN.toNat = ([] : List Byte).length ∧
    ([] : List Byte).length ≤ ({ State.resetOf 0 with phase := Phase.init } : State).msgCap ∧
    Holds { State.resetOf 0 with phase := Phase.init } [] := by decide

/-- The turns of a run of the empty message after its INIT: the host polls, starts and writes, then the core runs. -/
def busyHost : List Turn :=
  [ask 0x01#6 0 0#32, ask 0x10#6 0 1#32, ask 0x30#6 0 0x61#32] ++ List.replicate 120 Turn.core

/-- INIT of the empty message, and all turns of its run, the last one FINAL. -/
def interleaved : State := { fresh with phase := Phase.init, turns := .core :: (busyHost ++ .core :: [.reset]) }

theorem witness_EveryInterleavingHashesTheMessage :
    interleaved.phase = Phase.init ∧ interleaved.coreStopped = false ∧
    interleaved.LEN.toNat = ([] : List Byte).length ∧ ([] : List Byte).length ≤ interleaved.msgCap ∧
    Holds interleaved [] ∧ interleaved.turns = .core :: (busyHost ++ .core :: [.reset]) ∧
    (∀ u ∈ busyHost, u.stable ([] : List Byte).length = true) ∧
    busyHost.count .core = 120 * blockCount ([] : List Byte).length :=
  ⟨by decide, by decide, by decide, by decide, by decide, rfl, by decide +kernel, by decide +kernel⟩

end Sys2Proof.Tests
end

section
/-! PROOFS, 00_scope. The cases of exec that Laws/Exec.lean leaves out (a START taken or not, and the stops of log
entry 7), and O14: MSG_CAP is a parameter of the machine (R12) that no instruction and no turn changes. -/

namespace Sys2Proof.Machine

/-! ## The remaining cases of the branching instructions -/

theorem exec_wrCtrl_of_start {s : State} {data : Word} (h : (startBit data && !s.busy) = true) :
    exec (.wrCtrl data) s = .next { s with phase := Phase.init } :=
  if_pos h

theorem exec_wrCtrl_of_no_start {s : State} {data : Word} (h : (startBit data && !s.busy) = false) :
    exec (.wrCtrl data) s = .next s :=
  if_neg (Bool.eq_false_iff.1 h)

theorem exec_fmtPad_of_no_position {s : State} (h : s.padNow = true) (hr : ¬(0 ≤ s.rem ∧ s.rem < 64)) :
    exec .fmtPad s = .fault .padIndex := by
  simp only [exec, execFmtPad, h, if_true, dif_neg hr]

theorem exec_expand_of_no_position {s : State} (h : ¬(16 ≤ s.t ∧ s.t < 64)) :
    exec .expand s = .fault .expandIndex :=
  dif_neg h

theorem exec_round_of_no_position {s : State} (h : ¬s.t < 64) :
    exec .round s = .fault .roundIndex :=
  dif_neg h

/-! ## MSG_CAP is never written -/

/-- An instruction with cases keeps MSG_CAP in each of them; the others have a single next state, which keeps it. -/
theorem exec_msgCap {i : Instr} {s t : State} (h : exec i s = .next t) : t.msgCap = s.msgCap := by
  cases i with
  | rdDigest j =>
    cases hw : s.doutWritten
    · cases (exec_rdDigest_of_unwritten hw).symm.trans h; rfl
    · cases (exec_rdDigest_of_written hw).symm.trans h; rfl
  | wrCtrl data =>
    cases hs : startBit data && !s.busy
    · cases (exec_wrCtrl_of_no_start hs).symm.trans h; rfl
    · cases (exec_wrCtrl_of_start hs).symm.trans h; rfl
  | rdMsg idx a =>
    rcases Nat.lt_or_ge a s.msgCap with ha | ha
    · cases hr : s.readMsg a
      · cases (exec_rdMsg_of_unwritten ha hr).symm.trans h; rfl
      · cases (exec_rdMsg_of_written hr).symm.trans h; rfl
    · cases (exec_rdMsg_of_outside ha).symm.trans h; rfl
  | wrMsg idx a data =>
    rcases Nat.lt_or_ge a s.msgCap with ha | ha
    · cases (exec_wrMsg_of_range ha).symm.trans h; rfl
    · cases (exec_wrMsg_of_outside ha).symm.trans h; rfl
  | init =>
    rcases Nat.lt_or_ge s.msgCap s.LEN.toNat with hl | hl
    · cases (exec_init_of_overrun hl).symm.trans h; rfl
    · cases (exec_init_of_fits hl).symm.trans h; rfl
  | fmtCopy =>
    cases hu : s.lowestUnwritten (64 * s.i) s.copyCount
    · cases (exec_fmtCopy_of_written hu).symm.trans h; rfl
    · cases (exec_fmtCopy_of_unwritten hu).symm.trans h; rfl
  | fmtPad =>
    cases hp : s.padNow
    · cases (exec_fmtPad_of_skips hp).symm.trans h; rfl
    · by_cases hr : 0 ≤ s.rem ∧ s.rem < 64
      · cases (exec_fmtPad_of_inserts hp hr).symm.trans h; rfl
      · cases (exec_fmtPad_of_no_position hp hr).symm.trans h
  | fmtLen =>
    cases hl : s.lenNow
    · cases (exec_fmtLen_of_skips hl).symm.trans h; rfl
    · cases (exec_fmtLen_of_writes hl).symm.trans h; rfl
  | expand =>
    by_cases ht : 16 ≤ s.t ∧ s.t < 64
    · cases (exec_expand_of_position ht).symm.trans h; rfl
    · cases (exec_expand_of_no_position ht).symm.trans h
  | round =>
    by_cases ht : s.t < 64
    · cases (exec_round_of_position ht).symm.trans h; rfl
    · cases (exec_round_of_no_position ht).symm.trans h
  | _ => cases h; rfl

/-- Settles O14: a turn resets, passes or runs one instruction, and each keeps MSG_CAP. -/
theorem stepKeepsCapacity : Obligations.StepKeepsCapacity := by
  intro s t h
  rcases step_cases s with ⟨_, _, e⟩ | ⟨_, _, _, e⟩ | ⟨_, _, e⟩ | ⟨_, _, e⟩
  · cases e.symm.trans h
    exact s.tail.resetEvent_msgCap
  · exact exec_msgCap (s := s.tail) (e.symm.trans h)
  · cases e.symm.trans h
    rfl
  · exact exec_msgCap (s := s.tail) (e.symm.trans h)

end Sys2Proof.Machine
end

section
/-! PROOFS, 10_state. All that a host transaction and a micro-operation can do, each said once; and from them the
record that only grows (R41), DOUT that only FINAL writes (R38), the frame of the host (R42) and the invariant that
every step keeps (R43, R44, R108). -/

namespace Sys2Proof.Machine

/-! ## What a host transaction can do -/

/-- The effects of a host transaction: the response of a read and the two LEN registers, or any part of these (R200,
R209-R212); a fault that is no core fault (R232); a START that is taken (R201); one message byte (R205). -/
inductive HostEffect (i : Instr) (s : State) : State → Prop where
  | registers (r : Option Word) (lo hi : Word) :
      HostEffect i s { s with rdata := r, LEN_LO := lo, LEN_HI := hi }
  | fault (f : FaultRec) (r : Option Word) (hf : f.isCore = false) :
      HostEffect i s { s.addFault f with rdata := r }
  | start (data : Word) (hi : i = .wrCtrl data) (hstart : startBit data = true) (hbusy : s.busy = false) :
      HostEffect i s { s with phase := Phase.init }
  | store (idx : BitVec 4) (a : Nat) (data : Word) (hi : i = .wrMsg idx a data) (ha : a < s.msgCap) :
      HostEffect i s (s.writeMsg a (dataByte data))

theorem exec_hostEffect {i : Instr} {s t : State} (hi : i.isCore = false) (h : exec i s = .next t) :
    HostEffect i s t := by
  cases i with
  | rdDigest j =>
    cases hw : s.doutWritten
    · cases (exec_rdDigest_of_unwritten hw).symm.trans h; exact .fault _ _ rfl
    · cases (exec_rdDigest_of_written hw).symm.trans h; exact .registers _ _ _
  | wrCtrl data =>
    cases hs : startBit data && !s.busy
    · cases (exec_wrCtrl_of_no_start hs).symm.trans h; exact .registers _ _ _
    · cases (exec_wrCtrl_of_start hs).symm.trans h
      obtain ⟨hstart, hbusy⟩ := Bool.and_eq_true_iff.1 hs
      exact .start data rfl hstart (by simpa using hbusy)
  | rdMsg idx a =>
    rcases Nat.lt_or_ge a s.msgCap with ha | ha
    · cases hr : s.readMsg a
      · cases (exec_rdMsg_of_unwritten ha hr).symm.trans h; exact .fault _ _ rfl
      · cases (exec_rdMsg_of_written hr).symm.trans h; exact .registers _ _ _
    · cases (exec_rdMsg_of_outside ha).symm.trans h; exact .fault _ _ rfl
  | wrMsg idx a data =>
    rcases Nat.lt_or_ge a s.msgCap with ha | ha
    · cases (exec_wrMsg_of_range ha).symm.trans h; exact .store idx a data rfl ha
    · cases (exec_wrMsg_of_outside ha).symm.trans h; exact .fault _ s.rdata rfl
  | rdCtrl | rdStatus | rdLenLo | rdLenHi | rdRsvd | wrStatus | wrLenLo | wrLenHi | wrRsvd | wrDigest =>
    cases h; exact .registers _ _ _
  | _ => cases hi

section
variable {i : Instr} {s t : State}

theorem HostEffect.phase (e : HostEffect i s t) : t.phase = s.phase ∨
    ∃ data : Word, i = .wrCtrl data ∧ data.getLsbD 0 = true ∧ s.busy = false ∧ t.phase = 0x1#4 := by
  cases e with
  | start data hi hstart hbusy => exact .inr ⟨data, hi, hstart, hbusy, rfl⟩
  | _ => exact .inl rfl

theorem HostEffect.readMsg (e : HostEffect i s t) (a : Nat) (hi : ∀ idx data, i ≠ .wrMsg idx a data) :
    t.readMsg a = s.readMsg a := by
  cases e with
  | store idx b data hb hlt =>
    have hne : a ≠ b := by rintro rfl; exact hi idx data hb
    rw [s.readMsg_writeMsg _ hlt, if_neg hne]
  | _ => rfl

theorem HostEffect.coreStopped (e : HostEffect i s t) : t.coreStopped = s.coreStopped := by
  cases e with
  | fault f r hf => exact (s.addFault_coreStopped f).trans (by rw [hf, Bool.or_false])
  | _ => rfl

theorem HostEffect.digest (e : HostEffect i s t) : t.DOUT = s.DOUT ∧ t.doutWritten = s.doutWritten := by
  cases e <;> exact ⟨rfl, rfl⟩

theorem HostEffect.faults (e : HostEffect i s t) {g : FaultRec} (hg : g ∈ s.faults) : g ∈ t.faults := by
  cases e with
  | fault f r hf => exact (s.mem_addFault f g).2 (.inl hg)
  | _ => exact hg

end

/-! ## What a micro-operation can do -/

/-- The effects of a micro-operation: a core fault, never in IDLE or DONE (R191, R194, R232), or writes of the run's
registers, of which FINAL alone writes DOUT (R175). -/
inductive CoreEffect (i : Instr) (s : State) : State → Prop where
  | fault (f : FaultRec) (hf : f.isCore = true) (hidle : i ≠ .idle) (hdone : i ≠ .done) :
      CoreEffect i s (s.addFault f)
  | writes (t : State)
      (hframe : t = { s with
        H := t.H, WV := t.WV, BLK := t.BLK, W := t.W, L := t.L, N := t.N, i := t.i, t := t.t, phase := t.phase
        padInserted := t.padInserted, lenWritten := t.lenWritten, DOUT := t.DOUT, doutWritten := t.doutWritten })
      (hdigest : i ≠ .final → t.DOUT = s.DOUT ∧ t.doutWritten = s.doutWritten) :
      CoreEffect i s t

theorem exec_coreEffect {i : Instr} {s t : State} (hi : i.isCore = true) (h : exec i s = .next t) :
    CoreEffect i s t := by
  cases i with
  | init =>
    rcases Nat.lt_or_ge s.msgCap s.LEN.toNat with hl | hl
    · cases (exec_init_of_overrun hl).symm.trans h; exact .fault _ rfl nofun nofun
    · cases (exec_init_of_fits hl).symm.trans h; exact .writes _ rfl fun _ => ⟨rfl, rfl⟩
  | fmtCopy =>
    cases hu : s.lowestUnwritten (64 * s.i) s.copyCount
    · cases (exec_fmtCopy_of_written hu).symm.trans h; exact .writes _ rfl fun _ => ⟨rfl, rfl⟩
    · cases (exec_fmtCopy_of_unwritten hu).symm.trans h; exact .fault _ rfl nofun nofun
  | fmtPad =>
    cases hp : s.padNow
    · cases (exec_fmtPad_of_skips hp).symm.trans h; exact .writes _ rfl fun _ => ⟨rfl, rfl⟩
    · by_cases hr : 0 ≤ s.rem ∧ s.rem < 64
      · cases (exec_fmtPad_of_inserts hp hr).symm.trans h; exact .writes _ rfl fun _ => ⟨rfl, rfl⟩
      · cases (exec_fmtPad_of_no_position hp hr).symm.trans h
  | fmtLen =>
    cases hl : s.lenNow
    · cases (exec_fmtLen_of_skips hl).symm.trans h; exact .writes _ rfl fun _ => ⟨rfl, rfl⟩
    · cases (exec_fmtLen_of_writes hl).symm.trans h; exact .writes _ rfl fun _ => ⟨rfl, rfl⟩
  | expand =>
    by_cases ht : 16 ≤ s.t ∧ s.t < 64
    · cases (exec_expand_of_position ht).symm.trans h; exact .writes _ rfl fun _ => ⟨rfl, rfl⟩
    · cases (exec_expand_of_no_position ht).symm.trans h
  | round =>
    by_cases ht : s.t < 64
    · cases (exec_round_of_position ht).symm.trans h; exact .writes _ rfl fun _ => ⟨rfl, rfl⟩
    · cases (exec_round_of_no_position ht).symm.trans h
  | rsvdE | rsvdF => cases h; exact .fault _ rfl nofun nofun
  | final => cases h; exact .writes _ rfl fun hne => absurd rfl hne
  | idle | fmtZero | unpack | loadWv | fold | next | done => cases h; exact .writes _ rfl fun _ => ⟨rfl, rfl⟩
  | _ => cases hi

section
variable {i : Instr} {s t : State}

theorem CoreEffect.digest (e : CoreEffect i s t) (hi : i ≠ .final) :
    t.DOUT = s.DOUT ∧ t.doutWritten = s.doutWritten := by
  cases e with
  | fault => exact ⟨rfl, rfl⟩
  | writes _ _ hdigest => exact hdigest hi

theorem CoreEffect.faults (e : CoreEffect i s t) {g : FaultRec} (hg : g ∈ s.faults) : g ∈ t.faults := by
  cases e with
  | fault f => exact (s.mem_addFault f g).2 (.inl hg)
  | writes _ hframe => exact congrArg State.faults hframe ▸ hg

theorem CoreEffect.messageOk (e : CoreEffect i s t) (h : s.MessageOk) : t.MessageOk := by
  cases e with
  | fault => exact h
  | writes _ hframe =>
    have hmsg : t.MSG = s.MSG := (congrArg State.MSG hframe :)
    have hcap : t.msgCap = s.msgCap := (congrArg State.msgCap hframe :)
    simpa only [State.MessageOk, hmsg, hcap] using h

theorem CoreEffect.nodup (e : CoreEffect i s t) (h : s.faults.Nodup) : t.faults.Nodup := by
  cases e with
  | fault f => exact State.addFault_nodup f h
  | writes _ hframe => exact congrArg State.faults hframe ▸ h

end

theorem decodePhase_eq_final {c : BitVec 4} (h : decodePhase c = .final) : c = Phase.final := by
  revert c; decide

theorem State.busy_of_decodePhase {s : State} (hidle : decodePhase s.phase ≠ .idle)
    (hdone : decodePhase s.phase ≠ .done) : s.busy = true := by
  have hi : s.phase ≠ Phase.idle := fun h => hidle (h ▸ rfl)
  have hd : s.phase ≠ Phase.done := fun h => hdone (h ▸ rfl)
  simp [State.busy, hi, hd]

/-! ## The record, DOUT and the frame of the host -/

/-- Settles O16: a turn that is no reset passes, or runs a transaction or a micro-operation, and each keeps what is
recorded. -/
theorem faultRecordOnlyGrows : Obligations.FaultRecordOnlyGrows := by
  intro s t hreset h f hf
  rcases step_cases s with ⟨ts, hts, _⟩ | ⟨r, _, _, e⟩ | ⟨_, _, e⟩ | ⟨_, _, e⟩
  · exact absurd hts (hreset ts)
  · exact (exec_hostEffect (decodeRequest_isCore r) (e.symm.trans h)).faults hf
  · cases e.symm.trans h
    exact hf
  · exact (exec_coreEffect (decodePhase_isCore _) (e.symm.trans h)).faults hf

/-- Settles O19: a transaction and a passing turn keep DOUT, and a core that runs, in a phase other than FINAL, selects
a micro-operation other than FINAL. -/
theorem onlyFinalWritesDigest : Obligations.OnlyFinalWritesDigest := by
  intro s t hreset h hturn
  rcases step_cases s with ⟨ts, hts, _⟩ | ⟨r, _, _, e⟩ | ⟨_, _, e⟩ | ⟨hcore, hrun, e⟩
  · exact absurd hts (hreset ts)
  · exact (exec_hostEffect (decodeRequest_isCore r) (e.symm.trans h)).digest
  · cases e.symm.trans h
    exact ⟨rfl, rfl⟩
  · have hphase : s.phase ≠ Phase.final := by
      rcases hturn with ⟨r, ts, hts⟩ | hphase | hstop
      · simp [hts] at hcore
      · exact hphase
      · exact absurd hstop (Bool.eq_false_iff.1 hrun)
    exact (exec_coreEffect (decodePhase_isCore _) (e.symm.trans h)).digest fun hi =>
      hphase (decodePhase_eq_final hi)

/-- Settles O21: none of the effects of a host transaction writes a datapath register or DOUT. -/
theorem hostFrame : Obligations.HostFrame := by
  intro i s t hi h
  have e := exec_hostEffect hi h
  have hphase := e.phase
  have hmsg := e.readMsg
  have hstop := e.coreStopped
  cases e <;>
    exact ⟨rfl, rfl, rfl, rfl, rfl, rfl, rfl, rfl, rfl, rfl, rfl, rfl, rfl, rfl, hphase, hmsg, hstop⟩

/-! ## The position of the run, by the micro-operation the core stands at -/

/-- What the invariant says of the registers of a run whose next micro-operation is `i`: `State.PositionOk` read by the
instruction and not by the phase code. -/
def State.PositionFor (s : State) : Instr → Prop
  | .idle | .init => True
  | .fmtZero | .fmtCopy | .fmtPad => s.BeforePad
  | .fmtLen => s.AfterPad
  | .unpack => s.Formatted
  | .expand => s.Formatted ∧ 16 ≤ s.t ∧ s.t < 64
  | .round => s.Formatted ∧ s.t < 64
  | .loadWv | .fold | .next => s.Formatted ∧ s.t = 64
  | .final => s.AllBlocksDone ∧ s.t = 64
  | .done => s.AllBlocksDone ∧ s.t = 64 ∧ s.doutWritten = true
  | _ => False

/-- Every phase code, by its number. -/
theorem phase_cases (c : BitVec 4) :
    c = 0x0#4 ∨ c = 0x1#4 ∨ c = 0x2#4 ∨ c = 0x3#4 ∨ c = 0x4#4 ∨ c = 0x5#4 ∨ c = 0x6#4 ∨ c = 0x7#4 ∨
    c = 0x8#4 ∨ c = 0x9#4 ∨ c = 0xA#4 ∨ c = 0xB#4 ∨ c = 0xC#4 ∨ c = 0xD#4 ∨ c = 0xE#4 ∨ c = 0xF#4 := by
  revert c; decide

theorem State.positionFor_iff (s : State) :
    s.PositionFor (decodePhase s.phase) ↔ s.phase.toNat < 14 ∧ s.PositionOk := by
  rcases phase_cases s.phase with h | h | h | h | h | h | h | h | h | h | h | h | h | h | h | h <;>
    simp [State.PositionFor, State.PositionOk, decodePhase, h]

/-! ## The two padding tests, by the numbers of the block (R105, R106, R108) -/

theorem blockCount_le (l : DWord) : blockCount l.toNat ≤ 2 ^ 58 + 1 := by
  have := l.isLt
  unfold blockCount
  omega

/-- The message ends in this block or in an earlier one. -/
theorem State.rem_lt_iff (s : State) : s.rem < 64 ↔ s.L.toNat / 64 ≤ s.i := by
  unfold State.rem
  omega

/-- The padding byte and the length field fit: this block is the last. -/
theorem State.rem_le_iff (s : State) : s.rem ≤ 55 ↔ blockCount s.L.toNat ≤ s.i + 1 := by
  unfold State.rem blockCount
  omega

theorem State.le_of_padNow {s : State} (hpad : s.padNow = true) : s.L.toNat / 64 ≤ s.i := by
  simp only [State.padNow, State.rem_lt_iff, Bool.and_eq_true, decide_eq_true_eq] at hpad
  exact hpad.2

/-- A message that ended in an earlier block has its padding byte already, so FMT_PAD skips with the flag as it should
be (R108). -/
theorem State.BeforePad.padInserted_of_skips {s : State} (hp : s.BeforePad) (hpad : s.padNow = false) :
    s.padInserted = decide (s.L.toNat / 64 ≤ s.i) := by
  obtain ⟨_, _, hins, _⟩ := hp
  rw [State.padNow, hins] at hpad
  simp only [State.rem_lt_iff, Bool.and_eq_false_iff, Bool.not_eq_false', decide_eq_true_eq,
    decide_eq_false_iff_not] at hpad
  rw [hins, decide_eq_decide]
  omega

/-- FMT_LEN writes the length field in the last block and in no other (R108). -/
theorem State.AfterPad.lenNow_eq {s : State} (hp : s.AfterPad) : s.lenNow = decide (s.i + 1 = s.N) := by
  obtain ⟨⟨_, hN⟩, hi, hins, hlen⟩ := hp
  rw [State.lenNow, hins, hlen, Bool.eq_iff_iff]
  simp only [State.rem_le_iff, ← hN, Bool.not_false, Bool.and_true, Bool.and_eq_true, decide_eq_true_eq]
  unfold blockCount at hN
  omega

/-! ## Every micro-operation leads to a position that the registers agree with -/

/-- The run that INIT begins stands before the padding step of its block 0 (R192). -/
theorem exec_init_position {s t : State} (hi : decodePhase s.phase = .init) (hc : s.CountersOk)
    (h : exec .init s = .next t) : t.CountersOk ∧ t.PositionFor (decodePhase t.phase) := by
  obtain ⟨ht, hiN, hN⟩ := hc
  rcases Nat.lt_or_ge s.msgCap s.LEN.toNat with hl | hl
  · cases (exec_init_of_overrun hl).symm.trans h
    exact ⟨⟨ht, hiN, hN⟩, by rw [State.addFault_phase, hi]; trivial⟩
  · cases (exec_init_of_fits hl).symm.trans h
    exact ⟨⟨ht, Nat.zero_le _, blockCount_le _⟩, ⟨hl, rfl⟩, Nat.succ_pos _, by simp, rfl⟩

theorem exec_fmtCopy_position {s t : State} (hi : decodePhase s.phase = .fmtCopy) (hc : s.CountersOk)
    (hp : s.BeforePad) (h : exec .fmtCopy s = .next t) :
    t.CountersOk ∧ t.PositionFor (decodePhase t.phase) := by
  cases hu : s.lowestUnwritten (64 * s.i) s.copyCount
  · cases (exec_fmtCopy_of_written hu).symm.trans h
    exact ⟨hc, hp⟩
  · cases (exec_fmtCopy_of_unwritten hu).symm.trans h
    exact ⟨hc, by rw [State.addFault_phase, hi]; exact hp⟩

theorem exec_fmtPad_position {s t : State} (hc : s.CountersOk) (hp : s.BeforePad)
    (h : exec .fmtPad s = .next t) : t.CountersOk ∧ t.PositionFor (decodePhase t.phase) := by
  have ⟨hrun, hi, _, hlen⟩ := hp
  cases hpad : s.padNow
  · cases (exec_fmtPad_of_skips hpad).symm.trans h
    exact ⟨hc, hrun, hi, hp.padInserted_of_skips hpad, hlen⟩
  · by_cases hr : 0 ≤ s.rem ∧ s.rem < 64
    · cases (exec_fmtPad_of_inserts hpad hr).symm.trans h
      exact ⟨hc, hrun, hi, (decide_eq_true (State.le_of_padNow hpad)).symm, hlen⟩
    · cases (exec_fmtPad_of_no_position hpad hr).symm.trans h

theorem exec_fmtLen_position {s t : State} (hc : s.CountersOk) (hp : s.AfterPad)
    (h : exec .fmtLen s = .next t) : t.CountersOk ∧ t.PositionFor (decodePhase t.phase) := by
  have ⟨hrun, hi, hins, hlen⟩ := hp
  cases hl : s.lenNow
  · cases (exec_fmtLen_of_skips hl).symm.trans h
    exact ⟨hc, hrun, hi, hins, by rw [hlen, ← hl, hp.lenNow_eq]⟩
  · cases (exec_fmtLen_of_writes hl).symm.trans h
    exact ⟨hc, hrun, hi, hins, by rw [← hl, hp.lenNow_eq]⟩

theorem exec_expand_position {s t : State} (hc : s.CountersOk) (hp : s.Formatted) (hpos : 16 ≤ s.t ∧ s.t < 64)
    (h : exec .expand s = .next t) : t.CountersOk ∧ t.PositionFor (decodePhase t.phase) := by
  obtain ⟨_, hi, hN⟩ := hc
  cases (exec_expand_of_position hpos).symm.trans h
  refine ⟨⟨hpos.2, hi, hN⟩, ?_⟩
  by_cases hlast : s.t + 1 = 64
  · rw [if_pos hlast]
    exact ⟨hp, hlast⟩
  · rw [if_neg hlast]
    exact ⟨hp, Nat.le_succ_of_le hpos.1, Nat.lt_of_le_of_ne hpos.2 hlast⟩

theorem exec_round_position {s t : State} (hc : s.CountersOk) (hp : s.Formatted) (hpos : s.t < 64)
    (h : exec .round s = .next t) : t.CountersOk ∧ t.PositionFor (decodePhase t.phase) := by
  obtain ⟨_, hi, hN⟩ := hc
  cases (exec_round_of_position hpos).symm.trans h
  refine ⟨⟨hpos, hi, hN⟩, ?_⟩
  by_cases hlast : s.t + 1 = 64
  · rw [if_pos hlast]
    exact ⟨hp, hlast⟩
  · rw [if_neg hlast]
    exact ⟨hp, Nat.lt_of_le_of_ne hpos hlast⟩

/-- NEXT goes to the next block's formatting, its padding flag as this block left it, or after the last block to FINAL,
where both flags are set (R193, R108). -/
theorem exec_next_position {s t : State} (hc : s.CountersOk) (hp : s.Formatted) (ht64 : s.t = 64)
    (h : exec .next s = .next t) : t.CountersOk ∧ t.PositionFor (decodePhase t.phase) := by
  obtain ⟨ht, _, hN⟩ := hc
  obtain ⟨hrun, hi, hins, hlen⟩ := hp
  cases h
  refine ⟨⟨ht, hi, hN⟩, ?_⟩
  by_cases hmore : s.i + 1 < s.N
  · rw [if_pos hmore]
    exact ⟨hrun, hmore, by simpa only [Nat.lt_succ_iff] using hins, by rw [hlen, decide_eq_false hmore.ne]⟩
  · have hlast : s.i + 1 = s.N := Nat.le_antisymm hi (Nat.not_lt.1 hmore)
    have hended : s.L.toNat / 64 ≤ s.i := by
      have := hrun.2
      unfold blockCount at this
      omega
    rw [if_neg hmore]
    exact ⟨⟨hrun, hlast, hins.trans (decide_eq_true hended), hlen.trans (decide_eq_true hlast)⟩, ht64⟩

/-- A micro-operation keeps the counters' bounds, and the phase it leads to is one the registers agree with. -/
theorem exec_position {i : Instr} {s t : State} (hi : decodePhase s.phase = i) (hc : s.CountersOk)
    (hp : s.PositionFor i) (h : exec i s = .next t) :
    t.CountersOk ∧ t.PositionFor (decodePhase t.phase) := by
  cases i with
  | idle | done => cases h; exact ⟨hc, hi ▸ hp⟩
  | init => exact exec_init_position hi hc h
  | fmtZero => cases h; exact ⟨hc, hp⟩
  | fmtCopy => exact exec_fmtCopy_position hi hc hp h
  | fmtPad => exact exec_fmtPad_position hc hp h
  | fmtLen => exact exec_fmtLen_position hc hp h
  | unpack => cases h; exact ⟨⟨by simp, hc.2⟩, hp, by simp⟩
  | expand => exact exec_expand_position hc hp.1 hp.2 h
  | loadWv => cases h; exact ⟨⟨Nat.zero_le _, hc.2⟩, hp.1, by simp⟩
  | round => exact exec_round_position hc hp.1 hp.2 h
  | fold => cases h; exact ⟨hc, hp⟩
  | next => exact exec_next_position hc hp.1 hp.2 h
  | final => cases h; exact ⟨hc, hp.1, hp.2, rfl⟩
  | _ => cases hp

/-! ## The invariant -/

/-- The invariant with the position read by the instruction. -/
theorem State.inv_iff {s : State} : s.Inv ↔
    s.MessageOk ∧ s.faults.Nodup ∧ s.CountersOk ∧ s.PositionFor (decodePhase s.phase) ∧
      (s.coreStopped = true → s.busy = true) := by
  rw [State.positionFor_iff]
  tauto

theorem State.resetEvent_inv (s : State) : s.resetEvent.Inv :=
  State.inv_iff.2 ⟨⟨.nil, nofun⟩, .nil, ⟨Nat.zero_le _, Nat.le_refl _, Nat.zero_le _⟩, trivial, nofun⟩

theorem State.writeMsg_messageOk {s : State} {a : Nat} (v : Byte) (ha : a < s.msgCap) (h : s.MessageOk) :
    (s.writeMsg a v).MessageOk := by
  obtain ⟨hwf, hlt⟩ := h
  refine ⟨Mem.wf_write a v hwf, fun c hc => ?_⟩
  rcases Mem.mem_write hc with rfl | hc
  · exact ha
  · exact hlt c hc

/-- A START that is taken enters INIT, whose registers nothing is said of; the other effects keep the position. -/
theorem HostEffect.inv {i : Instr} {s t : State} (e : HostEffect i s t) (hs : s.Inv) : t.Inv := by
  obtain ⟨hmsg, hnodup, hc, hpos, hstop⟩ := State.inv_iff.1 hs
  have hsame := e.coreStopped
  cases e with
  | registers => exact hs
  | fault f =>
    exact State.inv_iff.2 ⟨hmsg, State.addFault_nodup f hnodup, hc, hpos, fun h => hstop (hsame.symm.trans h)⟩
  | start => exact State.inv_iff.2 ⟨hmsg, hnodup, hc, trivial, fun _ => rfl⟩
  | store _ a _ _ ha =>
    exact State.inv_iff.2 ⟨State.writeMsg_messageOk _ ha hmsg, hnodup, hc, hpos, hstop⟩

/-- A core that its own micro-operation stopped stands in a phase that reads as busy (R232). -/
theorem CoreEffect.busy_of_stopped {s t : State} (e : CoreEffect (decodePhase s.phase) s t)
    (hrun : s.coreStopped = false) (hstop : t.coreStopped = true) : t.busy = true := by
  cases e with
  | fault _ _ hidle hdone => exact State.busy_of_decodePhase hidle hdone
  | writes _ hframe =>
    have hsame : t.coreStopped = s.coreStopped := (congrArg State.coreStopped hframe :)
    rw [hsame, hrun] at hstop
    cases hstop

theorem exec_decodePhase_inv {s t : State} (hs : s.Inv) (hrun : s.coreStopped = false)
    (h : exec (decodePhase s.phase) s = .next t) : t.Inv := by
  obtain ⟨hmsg, hnodup, hc, hpos, _⟩ := State.inv_iff.1 hs
  have e := exec_coreEffect (decodePhase_isCore _) h
  obtain ⟨hc', hpos'⟩ := exec_position rfl hc hpos h
  exact State.inv_iff.2 ⟨e.messageOk hmsg, e.nodup hnodup, hc', hpos', e.busy_of_stopped hrun⟩

/-- Settles O11: a reset, a transaction, a passing turn and the micro-operation of the phase each keep the invariant,
which says nothing of the tape. -/
theorem stepKeepsInvariant : Obligations.StepKeepsInvariant := by
  intro s t hs h
  have htail : s.tail.Inv := hs
  rcases step_cases s with ⟨_, _, e⟩ | ⟨r, _, _, e⟩ | ⟨_, _, e⟩ | ⟨_, hrun, e⟩
  · cases e.symm.trans h
    exact s.tail.resetEvent_inv
  · exact (exec_hostEffect (decodeRequest_isCore r) (e.symm.trans h)).inv htail
  · cases e.symm.trans h
    exact htail
  · exact exec_decodePhase_inv htail hrun (e.symm.trans h)

end Sys2Proof.Machine
end

section
/-! PROOFS, 20_memory. Which instruction each turn runs (R64); what a micro-operation leaves of the host's side (R63,
R70); the message memory's form under every turn (R50); and the host transaction repeated at once (R61), which rests on
what a read can do, said once. -/

namespace Sys2Proof.Machine

/-! ## A step, by the turn at the head of the tape -/

theorem fetchCore_of_running {s : State} (hrun : s.coreStopped = false) :
    fetchCore s = .instr (decodePhase s.phase) s :=
  if_neg (Bool.eq_false_iff.1 hrun)

theorem fetchCore_of_stopped {s : State} (hstop : s.coreStopped = true) : fetchCore s = .only s :=
  if_pos hstop

section
variable {s : State} {ts : List Turn}

theorem step_of_host_turn {r : HostReq} (h : s.turns = .host r :: ts) :
    step s = exec (decodeRequest r) { s with turns := ts } := by
  simp only [step, fetch, h, decode]

theorem step_of_reset_turn (h : s.turns = .reset :: ts) :
    step s = .next ({ s with turns := ts } : State).resetEvent := by
  simp only [step, fetch, h]

theorem step_of_core_turn (h : s.turns = .core :: ts) (hrun : s.coreStopped = false) :
    step s = exec (decodePhase s.phase) { s with turns := ts } := by
  have hfetch := fetchCore_of_running (s := { s with turns := ts }) hrun
  simp only [step, fetch, h, hfetch]

theorem step_of_stopped_core_turn (h : s.turns = .core :: ts) (hstop : s.coreStopped = true) :
    step s = .next { s with turns := ts } := by
  have hfetch := fetchCore_of_stopped (s := { s with turns := ts }) hstop
  simp only [step, fetch, h, hfetch]

theorem step_of_stopped_core (h : s.turns = []) (hstop : s.coreStopped = true) : step s = .next s := by
  simp only [step, fetch, h, fetchCore_of_stopped hstop]

end

/-- Settles O6: one equation of `step` per kind of turn. -/
theorem stepRunsTheTurn : Obligations.StepRunsTheTurn := fun _ _ =>
  ⟨fun _ => step_of_host_turn, step_of_core_turn, step_of_stopped_core_turn, step_of_core, step_of_stopped_core,
    step_of_reset_turn⟩

/-! ## What a micro-operation leaves alone -/

theorem CoreEffect.hostSide {i : Instr} {s t : State} (e : CoreEffect i s t) :
    t.MSG = s.MSG ∧ t.LEN_LO = s.LEN_LO ∧ t.LEN_HI = s.LEN_HI ∧ t.msgCap = s.msgCap ∧ t.rdata = s.rdata ∧
      t.turns = s.turns := by
  cases e with
  | fault => exact ⟨rfl, rfl, rfl, rfl, rfl, rfl⟩
  | writes _ hframe =>
    rw [hframe]
    exact ⟨rfl, rfl, rfl, rfl, rfl, rfl⟩

/-- Settles O20: both effects of a micro-operation keep MSG and MSG_CAP, by which alone the message memory reads. -/
theorem coreFrame : Obligations.CoreFrame := by
  intro i s t hi h
  have e := exec_coreEffect hi h
  obtain ⟨hmsg, hlo, hhi, hcap, hrdata, hturns⟩ := e.hostSide
  exact ⟨State.readMsg_congr hmsg hcap, hmsg, hlo, hhi, hcap, hrdata, hturns, fun _ => e.faults⟩

/-! ## The form of the message memory -/

theorem State.resetEvent_messageOk (s : State) : s.resetEvent.MessageOk := ⟨.nil, nofun⟩

/-- WR_MSG stores below MSG_CAP only; no other effect of a transaction touches the memory. -/
theorem HostEffect.messageOk {i : Instr} {s t : State} (e : HostEffect i s t) (h : s.MessageOk) : t.MessageOk := by
  cases e with
  | registers | fault | start => exact h
  | store _ _ _ _ ha => exact State.writeMsg_messageOk _ ha h

/-- Settles O13: a reset empties the memory, and a passing turn, a transaction and a micro-operation keep its form. -/
theorem stepKeepsMessageForm : Obligations.StepKeepsMessageForm := by
  intro s t hs h
  have htail : s.tail.MessageOk := hs
  rcases step_cases s with ⟨_, _, e⟩ | ⟨r, _, _, e⟩ | ⟨_, _, e⟩ | ⟨_, _, e⟩
  · cases e.symm.trans h
    exact s.tail.resetEvent_messageOk
  · exact (exec_hostEffect (decodeRequest_isCore r) (e.symm.trans h)).messageOk htail
  · cases e.symm.trans h
    exact htail
  · exact (exec_coreEffect (decodePhase_isCore _) (e.symm.trans h)).messageOk htail

/-! ## The updates of a transaction made twice -/

theorem Mem.write_write_same (m : List Host.Cell) (x : Nat) (v : Byte) :
    Mem.write (Mem.write m x v) x v = Mem.write m x v := by
  induction m with
  | nil => simp [Mem.write]
  | cons c m ih =>
    obtain ⟨a, b⟩ := c
    rcases Nat.lt_trichotomy x a with hx | rfl | hx
    · simp [Mem.write, hx]
    · simp [Mem.write]
    · simp [Mem.write, Nat.lt_asymm hx, hx.ne', ih]

theorem State.writeMsg_writeMsg_same (s : State) (a : Nat) (v : Byte) :
    (s.writeMsg a v).writeMsg a v = s.writeMsg a v := by
  simp only [State.writeMsg, Mem.write_write_same]

theorem State.mem_addFault_self (s : State) (f : FaultRec) : f ∈ (s.addFault f).faults :=
  (s.mem_addFault f f).2 (.inr rfl)

theorem State.addFault_addFault_same (s : State) (f : FaultRec) : (s.addFault f).addFault f = s.addFault f :=
  State.addFault_of_mem (s.mem_addFault_self f)

/-! ## What a read can do -/

/-- `s` with another response and another record: all that a read can change. -/
abbrev State.withRead (s : State) (r : Option Word) (fs : List FaultRec) : State := { s with rdata := r, faults := fs }

/-- A read answers a word or raises a fault, and which word or fault it is depends neither on the response of the read
before nor on the record. -/
theorem exec_read_cases {i : Instr} (s : State) (hi : i.isRead = true) :
    (∃ v, ∀ r fs, exec i (s.withRead r fs) = .next ((s.withRead r fs).respond v)) ∨
    (∃ f, ∀ r fs, exec i (s.withRead r fs) = (s.withRead r fs).raiseRead f) := by
  cases i with
  | rdStatus => exact .inl ⟨s.status, fun _ _ => rfl⟩
  | rdCtrl | rdLenLo | rdLenHi | rdRsvd => exact .inl ⟨_, fun _ _ => rfl⟩
  | rdDigest j =>
    cases hw : s.doutWritten
    · exact .inr ⟨_, fun _ _ => exec_rdDigest_of_unwritten hw⟩
    · exact .inl ⟨digestWord s.DOUT j, fun _ _ => exec_rdDigest_of_written hw⟩
  | rdMsg idx a =>
    rcases Nat.lt_or_ge a s.msgCap with ha | ha
    · cases hr : s.readMsg a
      · exact .inr ⟨_, fun _ _ => exec_rdMsg_of_unwritten ha hr⟩
      · exact .inl ⟨_, fun _ _ => exec_rdMsg_of_written hr⟩
    · exact .inr ⟨_, fun _ _ => exec_rdMsg_of_outside ha⟩
  | _ => cases hi

section
variable {i : Instr} {s t : State}

/-- A read that answers leaves the record; one that faults leaves no response (log entry 5). -/
theorem exec_read_frame (hi : i.isRead = true) (h : exec i s = .next t) :
    t = s.withRead t.rdata t.faults ∧ (t.rdata ≠ none → t.faults = s.faults) := by
  rcases exec_read_cases s hi with ⟨v, e⟩ | ⟨f, e⟩
  · cases (e s.rdata s.faults).symm.trans h
    exact ⟨rfl, fun _ => rfl⟩
  · cases (e s.rdata s.faults).symm.trans h
    exact ⟨rfl, fun hr => absurd rfl hr⟩

/-- The second read gives the same response, or raises a fault that is in the record already. -/
theorem exec_read_repeat (hi : i.isRead = true) (h : exec i s = .next t) : exec i t = .next t := by
  rcases exec_read_cases s hi with ⟨v, e⟩ | ⟨f, e⟩
  · cases (e s.rdata s.faults).symm.trans h
    exact e (some v) s.faults
  · cases (e s.rdata s.faults).symm.trans h
    have hsame : (s.withRead none (s.addFault f).faults).addFault f = s.withRead none (s.addFault f).faults :=
      State.addFault_of_mem (s.mem_addFault_self f)
    calc exec i (s.withRead none (s.addFault f).faults)
        = (s.withRead none (s.addFault f).faults).raiseRead f := e _ _
      _ = .next (s.withRead none (s.addFault f).faults) := by
          rw [State.raiseRead, hsame]

/-! ## A host transaction repeated at once -/

/-- After a START that is taken the core is busy, so the second is not taken; the other writes store what is there. -/
theorem exec_write_repeat (hi : i.isCore = false) (hw : i.isRead = false) (h : exec i s = .next t) :
    exec i t = .next t := by
  cases i with
  | wrCtrl data =>
    cases hs : startBit data && !s.busy
    · cases (exec_wrCtrl_of_no_start hs).symm.trans h
      exact exec_wrCtrl_of_no_start hs
    · cases (exec_wrCtrl_of_start hs).symm.trans h
      exact exec_wrCtrl_of_no_start (Bool.and_false _)
  | wrMsg idx a data =>
    rcases Nat.lt_or_ge a s.msgCap with ha | ha
    · cases (exec_wrMsg_of_range ha).symm.trans h
      rw [exec_wrMsg_of_range (s := s.writeMsg a (dataByte data)) ha, State.writeMsg_writeMsg_same]
    · cases (exec_wrMsg_of_outside ha).symm.trans h
      rw [exec_wrMsg_of_outside (s := s.addFault (.msgRange a)) ha, State.addFault_addFault_same]
  | wrStatus | wrLenLo | wrLenHi | wrRsvd | wrDigest => cases h; rfl
  | rdCtrl | rdStatus | rdLenLo | rdLenHi | rdRsvd | rdDigest | rdMsg => cases hw
  | _ => cases hi

end

/-- Settles O22: the repetition of a read and of a write, and the frame of a read. -/
theorem repeatedTransactionChangesNothing : Obligations.RepeatedTransactionChangesNothing := by
  intro i s t hi h
  refine ⟨?_, fun hr => exec_read_frame hr h⟩
  cases hr : i.isRead
  · exact exec_write_repeat hi hr h
  · exact exec_read_repeat hr h

end Sys2Proof.Machine
end

section
/-! PROOFS, 30_encoding. The fields of an OP (R80) and the rows of R82 that have an operand in them; from these, that
decoding and encoding invert each other, the one row of every OP, the fields that are ignored (R86), and the reserved
phases that no step enters (R87). -/

namespace Sys2Proof

/-! ## The fields of an OP (R80) -/

section
variable (sw : BitVec 2) (idx : BitVec 4) (a : Nat) (d : Word)

@[simp] theorem HostReq.space_append : (HostReq.mk (sw ++ idx) a d).space = sw.getLsbD 1 :=
  BitVec.getLsbD_append

@[simp] theorem HostReq.write_append : (HostReq.mk (sw ++ idx) a d).write = sw.getLsbD 0 :=
  BitVec.getLsbD_append

@[simp] theorem HostReq.idx_append : (HostReq.mk (sw ++ idx) a d).idx = idx :=
  BitVec.extractLsb'_append_eq_right

end

/-- S and W are the two bits above IDX. -/
theorem op_eq_append (op : BitVec 6) : op = op.extractLsb' 4 2 ++ op.extractLsb' 0 4 := by
  revert op; decide

/-- The four values of S and W (R81). -/
theorem spaceWrite_cases (sw : BitVec 2) : sw = 0b00#2 ∨ sw = 0b01#2 ∨ sw = 0b10#2 ∨ sw = 0b11#2 := by
  revert sw; decide

section
variable (idx : BitVec 4) (a : Nat) (d : Word)

theorem decodeRequest_regRead : decodeRequest ⟨0b00#2 ++ idx, a, d⟩ = decodeRegRead idx := by
  simp [decodeRequest]

theorem decodeRequest_regWrite : decodeRequest ⟨0b01#2 ++ idx, a, d⟩ = decodeRegWrite idx d := by
  simp [decodeRequest]

theorem decodeRequest_rdMsg : decodeRequest ⟨0b10#2 ++ idx, a, d⟩ = .rdMsg idx a := by
  simp [decodeRequest]

theorem decodeRequest_wrMsg : decodeRequest ⟨0b11#2 ++ idx, a, d⟩ = .wrMsg idx a d := by
  simp [decodeRequest]

end

/-! ## The register indexes (R82) -/

/-- The indexes 4..7 of the reserved registers, read as the tests of `decodeRegRead` and `decodeRegWrite` read them. -/
theorem rsvdIndex_spec (k : BitVec 2) :
    (0b01#2 ++ k ≠ 0x0#4 ∧ 0b01#2 ++ k ≠ 0x1#4 ∧ 0b01#2 ++ k ≠ 0x2#4 ∧ 0b01#2 ++ k ≠ 0x3#4) ∧
      0b01#2 ++ k < 0x8#4 ∧ (0b01#2 ++ k).extractLsb' 0 2 = k := by
  revert k; decide

/-- The same of the indexes 8..15 of the digest words. -/
theorem digestIndex_spec (j : BitVec 3) :
    (0b1#1 ++ j ≠ 0x0#4 ∧ 0b1#1 ++ j ≠ 0x1#4 ∧ 0b1#1 ++ j ≠ 0x2#4 ∧ 0b1#1 ++ j ≠ 0x3#4) ∧
      ¬0b1#1 ++ j < 0x8#4 ∧ (0b1#1 ++ j).extractLsb' 0 3 = j := by
  revert j; decide

theorem registerIndex_cases (idx : BitVec 4) : idx = 0x0#4 ∨ idx = 0x1#4 ∨ idx = 0x2#4 ∨ idx = 0x3#4 ∨
    (∃ k : BitVec 2, idx = 0b01#2 ++ k) ∨ ∃ j : BitVec 3, idx = 0b1#1 ++ j := by
  revert idx; decide

theorem decodeRegRead_rsvd (k : BitVec 2) : decodeRegRead (0b01#2 ++ k) = .rdRsvd k := by
  obtain ⟨⟨h0, h1, h2, h3⟩, hlt, hk⟩ := rsvdIndex_spec k
  simp only [decodeRegRead, h0, h1, h2, h3, hlt, hk, if_true, if_false]

theorem decodeRegRead_digest (j : BitVec 3) : decodeRegRead (0b1#1 ++ j) = .rdDigest j := by
  obtain ⟨⟨h0, h1, h2, h3⟩, hge, hj⟩ := digestIndex_spec j
  simp only [decodeRegRead, h0, h1, h2, h3, hge, hj, if_false]

theorem decodeRegWrite_rsvd (k : BitVec 2) (d : Word) : decodeRegWrite (0b01#2 ++ k) d = .wrRsvd k d := by
  obtain ⟨⟨h0, h1, h2, h3⟩, hlt, hk⟩ := rsvdIndex_spec k
  simp only [decodeRegWrite, h0, h1, h2, h3, hlt, hk, if_true, if_false]

theorem decodeRegWrite_digest (j : BitVec 3) (d : Word) : decodeRegWrite (0b1#1 ++ j) d = .wrDigest j d := by
  obtain ⟨⟨h0, h1, h2, h3⟩, hge, hj⟩ := digestIndex_spec j
  simp only [decodeRegWrite, h0, h1, h2, h3, hge, hj, if_false]

/-- The OP patterns of R82 with the operand k, as S, W and IDX. -/
theorem rsvdOp_eq_append (k : BitVec 2) :
    0b0001#4 ++ k = 0b00#2 ++ (0b01#2 ++ k) ∧ 0b0101#4 ++ k = 0b01#2 ++ (0b01#2 ++ k) := by
  revert k; decide

/-- The OP patterns of R82 with the operand j, as S, W and IDX. -/
theorem digestOp_eq_append (j : BitVec 3) :
    0b001#3 ++ j = 0b00#2 ++ (0b1#1 ++ j) ∧ 0b011#3 ++ j = 0b01#2 ++ (0b1#1 ++ j) := by
  revert j; decide

/-! ## Decoding inverts encoding -/

/-- Settles O1: a row with a fixed code by its code, one with an operand in OP by that operand's place in OP; the ADDR
wires lose nothing of an address that fits them. -/
theorem decodeInvertsEncode : Obligations.DecodeInvertsEncode := by
  intro aw i hwf
  cases i with
  | rdRsvd k =>
    calc decodeRequest ⟨0b0001#4 ++ k, 0, 0#32⟩
        = decodeRegRead (0b01#2 ++ k) := by rw [(rsvdOp_eq_append k).1, decodeRequest_regRead]
      _ = .rdRsvd k := decodeRegRead_rsvd k
  | rdDigest j =>
    calc decodeRequest ⟨0b001#3 ++ j, 0, 0#32⟩
        = decodeRegRead (0b1#1 ++ j) := by rw [(digestOp_eq_append j).1, decodeRequest_regRead]
      _ = .rdDigest j := decodeRegRead_digest j
  | wrRsvd k d =>
    calc decodeRequest ⟨0b0101#4 ++ k, 0, d⟩
        = decodeRegWrite (0b01#2 ++ k) d := by rw [(rsvdOp_eq_append k).2, decodeRequest_regWrite]
      _ = .wrRsvd k d := decodeRegWrite_rsvd k d
  | wrDigest j d =>
    calc decodeRequest ⟨0b011#3 ++ j, 0, d⟩
        = decodeRegWrite (0b1#1 ++ j) d := by rw [(digestOp_eq_append j).2, decodeRequest_regWrite]
      _ = .wrDigest j d := decodeRegWrite_digest j d
  | rdMsg idx a =>
    have ha : a % 2 ^ aw = a := Nat.mod_eq_of_lt (of_decide_eq_true hwf)
    rw [encode, ha]
    exact decodeRequest_rdMsg idx a 0#32
  | wrMsg idx a d =>
    have ha : a % 2 ^ aw = a := Nat.mod_eq_of_lt (of_decide_eq_true hwf)
    rw [encode, ha]
    exact decodeRequest_wrMsg idx a d
  | wrCtrl d => exact decodeRequest_regWrite 0x0#4 0 d
  | wrStatus d => exact decodeRequest_regWrite 0x1#4 0 d
  | wrLenLo d => exact decodeRequest_regWrite 0x2#4 0 d
  | wrLenHi d => exact decodeRequest_regWrite 0x3#4 0 d
  | _ => rfl

/-! ## Encoding what was decoded -/

theorem encode_decodeRegRead (aw : Nat) (idx : BitVec 4) :
    encode aw (decodeRegRead idx) = .request ⟨0b00#2 ++ idx, 0, 0#32⟩ := by
  rcases registerIndex_cases idx with rfl | rfl | rfl | rfl | ⟨k, rfl⟩ | ⟨j, rfl⟩
  · rfl
  · rfl
  · rfl
  · rfl
  · rw [decodeRegRead_rsvd, encode, (rsvdOp_eq_append k).1]
  · rw [decodeRegRead_digest, encode, (digestOp_eq_append j).1]

theorem encode_decodeRegWrite (aw : Nat) (idx : BitVec 4) (d : Word) :
    encode aw (decodeRegWrite idx d) = .request ⟨0b01#2 ++ idx, 0, d⟩ := by
  rcases registerIndex_cases idx with rfl | rfl | rfl | rfl | ⟨k, rfl⟩ | ⟨j, rfl⟩
  · rfl
  · rfl
  · rfl
  · rfl
  · rw [decodeRegWrite_rsvd, encode, (rsvdOp_eq_append k).2]
  · rw [decodeRegWrite_digest, encode, (digestOp_eq_append j).2]

/-- The form the assembler writes for any transaction (R80, R89): OP as it is, ADDR and DATA where they carry meaning
and zero elsewhere. -/
theorem encode_decodeRequest (aw : Nat) (r : HostReq) :
    encode aw (decodeRequest r)
      = .request ⟨r.op, if r.space then r.addr % 2 ^ aw else 0, if r.write then r.data else 0#32⟩ := by
  obtain ⟨op, a, d⟩ := r
  rw [op_eq_append op]
  generalize op.extractLsb' 0 4 = idx
  simp only [HostReq.space_append, HostReq.write_append]
  rcases spaceWrite_cases (op.extractLsb' 4 2) with h | h | h | h <;> rw [h]
  · rw [decodeRequest_regRead, encode_decodeRegRead]; rfl
  · rw [decodeRequest_regWrite, encode_decodeRegWrite]; rfl
  · rw [decodeRequest_rdMsg]; rfl
  · rw [decodeRequest_wrMsg]; rfl

theorem encode_decodePhase (aw : Nat) (c : BitVec 4) : encode aw (decodePhase c) = .phase c := by
  rcases Machine.phase_cases c with
    rfl | rfl | rfl | rfl | rfl | rfl | rfl | rfl | rfl | rfl | rfl | rfl | rfl | rfl | rfl | rfl <;> rfl

/-- A transaction as the assembler writes it: what the encoder puts on the wires is there already. -/
theorem HostReq.fields_of_wellFormed {aw : Nat} {r : HostReq} (h : r.wellFormed aw = true) :
    (if r.space then r.addr % 2 ^ aw else 0) = r.addr ∧ (if r.write then r.data else 0#32) = r.data := by
  obtain ⟨haddr, hdata⟩ := Bool.and_eq_true_iff.1 h
  rw [HostReq.space, HostReq.write]
  constructor
  · cases hs : r.op.getLsbD 5
    · simp only [hs, Bool.false_eq_true, if_false, decide_eq_true_iff] at haddr ⊢
      exact haddr.symm
    · simp only [hs, if_true, decide_eq_true_iff] at haddr ⊢
      exact Nat.mod_eq_of_lt haddr
  · cases hw : r.op.getLsbD 4
    · simp only [hw, Bool.false_or, Bool.false_eq_true, if_false, decide_eq_true_iff] at hdata ⊢
      exact hdata.symm
    · rfl

/-- Settles O2: the encoder's normal form of a transaction the assembler writes is that transaction. -/
theorem encodeInvertsDecode : Obligations.EncodeInvertsDecode := by
  intro aw e hwf
  cases e with
  | request r =>
    obtain ⟨haddr, hdata⟩ := HostReq.fields_of_wellFormed hwf
    rw [decode, encode_decodeRequest, haddr, hdata]
  | phase c => exact encode_decodePhase aw c

/-! ## The one row of every OP -/

/-- The per-instruction law, for every transaction's instruction. -/
theorem encodesInItsRow_of_host {i : Instr} (hi : i.isCore = false) : Laws.EncodesInItsRow.Statement i := by
  cases i with
  | rdCtrl => exact Laws.EncodesInItsRow.rdCtrl
  | rdStatus => exact Laws.EncodesInItsRow.rdStatus
  | rdLenLo => exact Laws.EncodesInItsRow.rdLenLo
  | rdLenHi => exact Laws.EncodesInItsRow.rdLenHi
  | rdRsvd k => exact Laws.EncodesInItsRow.rdRsvd k
  | rdDigest j => exact Laws.EncodesInItsRow.rdDigest j
  | wrCtrl d => exact Laws.EncodesInItsRow.wrCtrl d
  | wrStatus d => exact Laws.EncodesInItsRow.wrStatus d
  | wrLenLo d => exact Laws.EncodesInItsRow.wrLenLo d
  | wrLenHi d => exact Laws.EncodesInItsRow.wrLenHi d
  | wrRsvd k d => exact Laws.EncodesInItsRow.wrRsvd k d
  | wrDigest j d => exact Laws.EncodesInItsRow.wrDigest j d
  | rdMsg idx a => exact Laws.EncodesInItsRow.rdMsg idx a
  | wrMsg idx a d => exact Laws.EncodesInItsRow.wrMsg idx a d
  | _ => cases hi

/-- R82's table has a row at the place of every host instruction. -/
theorem Instr.hostRow_lt {i : Instr} {n : Nat} (h : i.hostRow = some n) : n < hostRows.length := by
  cases i <;> cases h <;> decide

/-- An OP is what its instruction is encoded with, so the per-instruction law speaks of it. -/
theorem hostRow_decodeRequest (r : HostReq) : ∃ n, (decodeRequest r).hostRow = some n ∧
    ∀ m row, hostRows[m]? = some row → (row.hits r.op = true ↔ m = n) := by
  have hlaw := encodesInItsRow_of_host (Machine.decodeRequest_isCore r) 0
  rwa [encode_decodeRequest] at hlaw

theorem decodeRequest_eq_rdDigest {r : HostReq} {j : BitVec 3} (h : decodeRequest r = .rdDigest j) :
    j = r.op.extractLsb' 0 3 := by
  have hop : r.op = 0b001#3 ++ j := by
    have henc := encode_decodeRequest 0 r
    rw [h] at henc
    exact (congrArg HostReq.op (Encoded.request.inj henc)).symm
  have hj : ∀ j : BitVec 3, j = (0b001#3 ++ j).extractLsb' 0 3 := by decide
  rw [hop]
  exact hj j

/-- Settles O3: the row of an OP's instruction is in the table, and by the per-instruction law it alone matches. -/
theorem everyOpHasExactlyOneRow : Obligations.EveryOpHasExactlyOneRow := by
  intro r
  obtain ⟨n, hn, hits⟩ := hostRow_decodeRequest r
  have hrow := List.getElem?_eq_getElem (Instr.hostRow_lt hn)
  exact ⟨⟨n, _, hn, hrow, (hits n _ hrow).2 rfl, fun m row hm => (hits m row hm).1⟩,
    fun _ => decodeRequest_eq_rdDigest⟩

/-! ## Words of the tables, and fields without meaning -/

/-- Settles O4: each word is in its row of R82, R85. -/
theorem wordsOfTheSpecDecode : Obligations.WordsOfTheSpecDecode := by
  unfold Obligations.WordsOfTheSpecDecode
  decide

theorem decodeRequest_addr_irrel {op : BitVec 6} (a a' : Nat) (d : Word) (hs : op.getLsbD 5 = false) :
    decodeRequest ⟨op, a, d⟩ = decodeRequest ⟨op, a', d⟩ := by
  cases hw : op.getLsbD 4 <;> simp only [decodeRequest, HostReq.space, HostReq.write, HostReq.idx, hs, hw]

theorem decodeRequest_data_irrel {op : BitVec 6} (a : Nat) (d d' : Word) (hw : op.getLsbD 4 = false) :
    decodeRequest ⟨op, a, d⟩ = decodeRequest ⟨op, a, d'⟩ := by
  cases hs : op.getLsbD 5 <;> simp only [decodeRequest, HostReq.space, HostReq.write, HostReq.idx, hs, hw]

namespace Machine

theorem dataByte_congr {d d' : Word} (h : d.toNat % 256 = d'.toNat % 256) : dataByte d = dataByte d' :=
  BitVec.eq_of_toNat_eq (by rw [dataByte_toNat, dataByte_toNat, h])

/-- WR_MSG's meaning has no IDX in it, and of DATA the low byte (R83, R86). -/
theorem exec_wrMsg_congr (idx idx' : BitVec 4) (a : Nat) {d d' : Word} (s : State)
    (h : d.toNat % 256 = d'.toNat % 256) : exec (.wrMsg idx a d) s = exec (.wrMsg idx' a d') s := by
  rcases Nat.lt_or_ge a s.msgCap with ha | ha
  · rw [exec_wrMsg_of_range ha, exec_wrMsg_of_range ha, dataByte_congr h]
  · rw [exec_wrMsg_of_outside ha, exec_wrMsg_of_outside ha]

/-- WR_CTRL's meaning has of DATA only START (R201). -/
theorem exec_wrCtrl_congr {d d' : Word} (s : State) (h : d.getLsbD 0 = d'.getLsbD 0) :
    exec (.wrCtrl d) s = exec (.wrCtrl d') s := by
  have hbit : startBit d = startBit d' := h
  simp only [exec, execWrCtrl, hbit]

end Machine

/-- Settles O5: ADDR and DATA by the four groups of R81, the other bits by the meanings they do not reach. -/
theorem fieldsWithoutMeaningAreIgnored : Obligations.FieldsWithoutMeaningAreIgnored :=
  ⟨fun _ a a' d => decodeRequest_addr_irrel a a' d, fun _ a d d' => decodeRequest_data_irrel a d d',
    fun _ _ _ _ => rfl, fun idx idx' a _ _ s => Machine.exec_wrMsg_congr idx idx' a s,
    fun _ _ s => Machine.exec_wrCtrl_congr s⟩

/-! ## The phase an instruction leaves -/

namespace Machine

/-- A phase code that some rule writes (R87). -/
@[simp] abbrev Phase.Unreserved (c : BitVec 4) : Prop := c ≠ Phase.rsvdE ∧ c ≠ Phase.rsvdF

theorem Phase.unreserved_ite {p : Prop} [Decidable p] {c d : BitVec 4} (hc : Phase.Unreserved c)
    (hd : Phase.Unreserved d) : Phase.Unreserved (if p then c else d) := by
  split
  · exact hc
  · exact hd

/-- A micro-operation that faults, passes or has no step keeps the phase; every other one writes a phase of its own,
whatever it was entered with. -/
theorem exec_core_phase {i : Instr} {s t : State} (hi : i.isCore = true) (h : exec i s = .next t) :
    t.phase = s.phase ∨ Phase.Unreserved t.phase := by
  cases i with
  | init =>
    rcases Nat.lt_or_ge s.msgCap s.LEN.toNat with hl | hl
    · cases (exec_init_of_overrun hl).symm.trans h; exact .inl rfl
    · cases (exec_init_of_fits hl).symm.trans h; exact .inr (by simp)
  | fmtCopy =>
    cases hu : s.lowestUnwritten (64 * s.i) s.copyCount
    · cases (exec_fmtCopy_of_written hu).symm.trans h; exact .inr (by simp)
    · cases (exec_fmtCopy_of_unwritten hu).symm.trans h; exact .inl rfl
  | fmtPad =>
    cases hp : s.padNow
    · cases (exec_fmtPad_of_skips hp).symm.trans h; exact .inr (by simp)
    · by_cases hr : 0 ≤ s.rem ∧ s.rem < 64
      · cases (exec_fmtPad_of_inserts hp hr).symm.trans h; exact .inr (by simp)
      · cases (exec_fmtPad_of_no_position hp hr).symm.trans h
  | fmtLen =>
    cases hl : s.lenNow
    · cases (exec_fmtLen_of_skips hl).symm.trans h; exact .inr (by simp)
    · cases (exec_fmtLen_of_writes hl).symm.trans h; exact .inr (by simp)
  | expand =>
    by_cases ht : 16 ≤ s.t ∧ s.t < 64
    · cases (exec_expand_of_position ht).symm.trans h
      exact .inr (Phase.unreserved_ite (by decide) (by decide))
    · cases (exec_expand_of_no_position ht).symm.trans h
  | round =>
    by_cases ht : s.t < 64
    · cases (exec_round_of_position ht).symm.trans h
      exact .inr (Phase.unreserved_ite (by decide) (by decide))
    · cases (exec_round_of_no_position ht).symm.trans h
  | next => cases h; exact .inr (Phase.unreserved_ite (by decide) (by decide))
  | idle | done | rsvdE | rsvdF => cases h; exact .inl rfl
  | fmtZero | unpack | loadWv | fold | final => cases h; exact .inr (by simp)
  | _ => cases hi

theorem exec_unreserved {i : Instr} {s t : State} (hs : Phase.Unreserved s.phase) (h : exec i s = .next t) :
    Phase.Unreserved t.phase := by
  cases hi : i.isCore
  · rcases (exec_hostEffect hi h).phase with hsame | ⟨_, _, _, _, hinit⟩
    · exact hsame ▸ hs
    · rw [hinit]; decide
  · rcases exec_core_phase hi h with hsame | hnew
    · exact hsame ▸ hs
    · exact hnew

/-- Settles O15: a reset enters IDLE, a passing turn keeps the phase, and an instruction keeps it or writes one that is
not reserved. -/
theorem stepNeverEntersReservedPhase : Obligations.StepNeverEntersReservedPhase := by
  intro s t hE hF h
  have htail : Phase.Unreserved s.tail.phase := ⟨hE, hF⟩
  rcases step_cases s with ⟨_, _, e⟩ | ⟨_, _, _, e⟩ | ⟨_, _, e⟩ | ⟨_, _, e⟩
  · cases e.symm.trans h
    rw [s.tail.resetEvent_phase]
    decide
  · exact exec_unreserved htail (e.symm.trans h)
  · cases e.symm.trans h
    exact htail
  · exact exec_unreserved htail (e.symm.trans h)

end Machine

end Sys2Proof
end

section
/-! PROOFS, 40_padder. The block count (R101) and the padded message byte by byte (R100); where an instruction stops
(log entry 7); each formatting micro-operation on its own (R103 to R107); and the four of them together, which build a
block of the padded message (R102, R108). -/

namespace Sys2Proof.Machine

/-! ## The block count and the padded message (R100, R101) -/

/-- Settles O37: each form is a floor of the same number. -/
theorem blockCountFormsAgree : Obligations.BlockCountFormsAgree := by
  intro len
  unfold blockCount
  exact ⟨rfl, fun k hk hz => by omega, by omega, fun hlen => by omega⟩

/-- z fills the last block: message, 0x80, z zeros and the length field are whole blocks. -/
theorem zeroCount_fills (len : Nat) : len + 1 + zeroCount len + 8 = 64 * blockCount len := by
  unfold zeroCount blockCount
  omega

theorem be64Bytes_length (x : DWord) : (be64Bytes x).length = 8 := by
  simp [be64Bytes]

theorem be64Bytes_getElem? (x : DWord) {k : Nat} (hk : k < 8) : (be64Bytes x)[k]? = some (byteOf64 x k) := by
  simp [be64Bytes, hk]

section
variable (msg : List Byte)

theorem padded_length : (padded msg).length = 64 * blockCount msg.length := by
  rw [← zeroCount_fills]
  simp only [padded, List.length_append, List.length_cons, List.length_replicate, be64Bytes_length]
  omega

theorem padded_getElem?_of_message {p : Nat} (hp : p < msg.length) : (padded msg)[p]? = some msg[p] := by
  rw [padded, List.getElem?_append_left hp, List.getElem?_eq_getElem hp]

theorem padded_getElem?_marker : (padded msg)[msg.length]? = some 0x80#8 := by
  simp [padded]

/-- The zeros start right after the 0x80. -/
theorem padded_getElem?_after_marker (k : Nat) : (padded msg)[msg.length + (k + 1)]? =
    (List.replicate (zeroCount msg.length) 0x00#8 ++ be64Bytes (BitVec.ofNat 64 (8 * msg.length)))[k]? := by
  rw [padded, List.getElem?_append_right (Nat.le_add_right _ _), Nat.add_sub_cancel_left, List.getElem?_cons_succ]

theorem padded_getElem?_of_zeros {p : Nat} (hp : msg.length < p) (hz : p + 8 < 64 * blockCount msg.length) :
    (padded msg)[p]? = some 0x00#8 := by
  have hfill := zeroCount_fills msg.length
  obtain ⟨k, rfl⟩ := Nat.exists_eq_add_of_lt hp
  have hk : k < zeroCount msg.length := by omega
  rw [Nat.add_assoc, padded_getElem?_after_marker, List.getElem?_append_left (by simpa using hk),
    List.getElem?_replicate_of_lt hk]

theorem padded_getElem?_of_length {p : Nat} (hz : 64 * blockCount msg.length ≤ p + 8)
    (hp : p < 64 * blockCount msg.length) :
    (padded msg)[p]? = some (byteOf64 (BitVec.ofNat 64 (8 * msg.length)) (p + 8 - 64 * blockCount msg.length)) := by
  have hfill := zeroCount_fills msg.length
  obtain ⟨k, rfl⟩ : ∃ k, p = msg.length + (zeroCount msg.length + k + 1) :=
    ⟨p + 8 - 64 * blockCount msg.length, by omega⟩
  rw [padded_getElem?_after_marker, List.getElem?_append_right (by simp), List.length_replicate,
    Nat.add_sub_cancel_left, be64Bytes_getElem? _ (by omega)]
  congr 2
  omega

end

/-- Byte k of the length field by the place p of the byte in n whole blocks. -/
theorem byteOf64_eq_ofNat (x n p : Nat) (hz : n ≤ p + 8) (hp : p < n) :
    byteOf64 (BitVec.ofNat 64 x) (p + 8 - n) = BitVec.ofNat 8 (x % 2 ^ 64 / 2 ^ (8 * (n - 1 - p)) % 256) := by
  apply BitVec.eq_of_toNat_eq
  rw [byteOf64_toNat, BitVec.toNat_ofNat, BitVec.toNat_ofNat, Nat.mod_mod,
    show 56 - 8 * (p + 8 - n) = 8 * (n - 1 - p) by omega]

/-- Settles O38: the four parts of the padded message, each by its own lemma. -/
theorem paddedMessageShape : Obligations.PaddedMessageShape := by
  intro msg
  refine ⟨padded_length msg, fun p hp => ?_⟩
  rw [padded_length] at hp ⊢
  split_ifs with hmsg hmark hzero
  · exact padded_getElem?_of_message msg hmsg
  · exact hmark ▸ padded_getElem?_marker msg
  · exact padded_getElem?_of_zeros msg (by omega) hzero
  · rw [padded_getElem?_of_length msg (Nat.not_lt.1 hzero) hp, byteOf64_eq_ofNat _ _ _ (Nat.not_lt.1 hzero) hp]

/-! ## Where an instruction stops (log entry 7) -/

/-- The three positions that have no array element, each with the stop it gives. -/
inductive StopsAt (s : State) : Instr → Fault → Prop where
  | expand (ht : ¬(16 ≤ s.t ∧ s.t < 64)) : StopsAt s .expand .expandIndex
  | round (ht : ¬s.t < 64) : StopsAt s .round .roundIndex
  | fmtPad (hpad : s.padInserted = false) (hrem : s.L.toNat < 64 * s.i) : StopsAt s .fmtPad .padIndex

section
variable {i : Instr} {s : State} {f : Fault}

theorem stopsAt_iff : StopsAt s i f ↔
    (i = .expand ∧ ¬(16 ≤ s.t ∧ s.t < 64) ∧ f = .expandIndex) ∨
    (i = .round ∧ 64 ≤ s.t ∧ f = .roundIndex) ∨
    (i = .fmtPad ∧ s.padInserted = false ∧ s.L.toNat < 64 * s.i ∧ f = .padIndex) := by
  constructor
  · rintro (ht | ht | ⟨hpad, hrem⟩)
    · exact .inl ⟨rfl, ht, rfl⟩
    · exact .inr (.inl ⟨rfl, Nat.not_lt.1 ht, rfl⟩)
    · exact .inr (.inr ⟨rfl, hpad, hrem, rfl⟩)
  · rintro (⟨rfl, ht, rfl⟩ | ⟨rfl, ht, rfl⟩ | ⟨rfl, hpad, hrem, rfl⟩)
    · exact .expand ht
    · exact .round (Nat.not_lt.2 ht)
    · exact .fmtPad hpad hrem

/-- The byte FMT_PAD writes has no place in the block exactly where the message ends in an earlier one. -/
theorem State.no_position_iff (hpad : s.padNow = true) :
    ¬(0 ≤ s.rem ∧ s.rem < 64) ↔ s.L.toNat < 64 * s.i := by
  obtain ⟨_, hlt⟩ := (State.padNow_iff s).1 hpad
  unfold State.rem
  omega

theorem StopsAt.exec_eq (h : StopsAt s i f) : exec i s = .fault f := by
  cases h with
  | expand ht => exact exec_expand_of_no_position ht
  | round ht => exact exec_round_of_no_position ht
  | fmtPad hpad hrem =>
    have hnow : s.padNow = true := (State.padNow_iff s).2 ⟨hpad, by omega⟩
    exact exec_fmtPad_of_no_position hnow ((State.no_position_iff hnow).2 hrem)

/-- Everywhere else the instruction has a next state. -/
theorem exec_next_or_stopsAt (i : Instr) (s : State) : (∃ t, exec i s = .next t) ∨ ∃ f, StopsAt s i f := by
  cases i with
  | expand =>
    by_cases ht : 16 ≤ s.t ∧ s.t < 64
    · exact .inl ⟨_, exec_expand_of_position ht⟩
    · exact .inr ⟨_, .expand ht⟩
  | round =>
    by_cases ht : s.t < 64
    · exact .inl ⟨_, exec_round_of_position ht⟩
    · exact .inr ⟨_, .round ht⟩
  | fmtPad =>
    cases hp : s.padNow
    · exact .inl ⟨_, exec_fmtPad_of_skips hp⟩
    · by_cases hr : 0 ≤ s.rem ∧ s.rem < 64
      · exact .inl ⟨_, exec_fmtPad_of_inserts hp hr⟩
      · exact .inr ⟨_, .fmtPad ((State.padNow_iff s).1 hp).1 ((State.no_position_iff hp).1 hr)⟩
  | fmtLen =>
    cases hl : s.lenNow
    · exact .inl ⟨_, exec_fmtLen_of_skips hl⟩
    · exact .inl ⟨_, exec_fmtLen_of_writes hl⟩
  | fmtCopy =>
    cases hu : s.lowestUnwritten (64 * s.i) s.copyCount
    · exact .inl ⟨_, exec_fmtCopy_of_written hu⟩
    · exact .inl ⟨_, exec_fmtCopy_of_unwritten hu⟩
  | init =>
    rcases Nat.lt_or_ge s.msgCap s.LEN.toNat with hl | hl
    · exact .inl ⟨_, exec_init_of_overrun hl⟩
    · exact .inl ⟨_, exec_init_of_fits hl⟩
  | rdDigest j =>
    cases hw : s.doutWritten
    · exact .inl ⟨_, exec_rdDigest_of_unwritten hw⟩
    · exact .inl ⟨_, exec_rdDigest_of_written hw⟩
  | wrCtrl data =>
    cases hs : startBit data && !s.busy
    · exact .inl ⟨_, exec_wrCtrl_of_no_start hs⟩
    · exact .inl ⟨_, exec_wrCtrl_of_start hs⟩
  | rdMsg idx a =>
    rcases Nat.lt_or_ge a s.msgCap with ha | ha
    · cases hr : s.readMsg a
      · exact .inl ⟨_, exec_rdMsg_of_unwritten ha hr⟩
      · exact .inl ⟨_, exec_rdMsg_of_written hr⟩
    · exact .inl ⟨_, exec_rdMsg_of_outside ha⟩
  | wrMsg idx a data =>
    rcases Nat.lt_or_ge a s.msgCap with ha | ha
    · exact .inl ⟨_, exec_wrMsg_of_range ha⟩
    · exact .inl ⟨_, exec_wrMsg_of_outside ha⟩
  | _ => exact .inl ⟨_, rfl⟩

theorem exec_eq_fault_iff : exec i s = .fault f ↔ StopsAt s i f := by
  refine ⟨fun h => ?_, StopsAt.exec_eq⟩
  rcases exec_next_or_stopsAt i s with ⟨t, e⟩ | ⟨g, hg⟩
  · cases e.symm.trans h
  · cases hg.exec_eq.symm.trans h
    exact hg

theorem exec_ne_refused (i : Instr) (s : State) (r : Refusal) : exec i s ≠ .refused r := by
  intro h
  rcases exec_next_or_stopsAt i s with ⟨t, e⟩ | ⟨f, hf⟩
  · cases e.symm.trans h
  · cases hf.exec_eq.symm.trans h

end

/-- Settles O23: an instruction has a next state or stands at one of the three positions, where it stops. -/
theorem execStopsOnlyWhereNoElementExists : Obligations.ExecStopsOnlyWhereNoElementExists :=
  fun i s => ⟨fun _ => exec_eq_fault_iff.trans stopsAt_iff, exec_ne_refused i s⟩

/-! ## Each formatting micro-operation (R103 to R107) -/

/-- Settles O39: the meaning has one case. -/
theorem fmtZeroClearsTheBlock : Obligations.FmtZeroClearsTheBlock :=
  ⟨decodePhase_fmtZero, fun _ =>
    ⟨_, rfl, fun _ h => Vector.getElem_replicate h, rfl, rfl, State.readMsg_congr rfl rfl⟩⟩

/-- An unwritten address with only written ones below it in the range is the lowest (R234). -/
theorem State.lowestUnwritten_eq_some_of_least {s : State} {base n j : Nat} (hj : j < n)
    (hnone : s.readMsg (base + j) = none) (hbelow : ∀ k < j, (s.readMsg (base + k)).isSome) :
    s.lowestUnwritten base n = some (base + j) := by
  cases hu : s.lowestUnwritten base n with
  | none => simpa [hnone] using State.lowestUnwritten_eq_none.1 hu j hj
  | some a =>
    obtain ⟨hle, _, ha, hleast⟩ := State.lowestUnwritten_eq_some hu
    obtain ⟨k, rfl⟩ := Nat.exists_eq_add_of_le hle
    rcases Nat.lt_trichotomy k j with hk | rfl | hk
    · simpa [ha] using hbelow k hk
    · rfl
    · simpa [hnone] using hleast (base + j) (by omega) (by omega)

/-- Settles O40: `lowestUnwritten` answers none, or the address that the record gains. -/
theorem fmtCopyCopiesTheMessage : Obligations.FmtCopyCopiesTheMessage := by
  refine ⟨decodePhase_fmtCopy, fun s => ?_⟩
  rw [← s.copyCount_eq]
  refine ⟨fun hall => ⟨_, exec_fmtCopy_of_written (State.lowestUnwritten_eq_none.2 hall), fun j h => ?_, rfl, rfl,
    State.readMsg_congr rfl rfl⟩, fun j hj hnone hbelow => ?_⟩
  · simp only [copyBytes_getElem]
    split_ifs with hj
    · obtain ⟨b, hb⟩ := Option.isSome_iff_exists.1 (hall j hj)
      rw [hb, Option.getD_some]
    · rfl
  · have hu := State.lowestUnwritten_eq_some_of_least hj hnone hbelow
    refine ⟨_, exec_fmtCopy_of_unwritten hu, ⟨s.mem_addFault _, rfl⟩, State.readMsg_congr rfl rfl, ?_⟩
    rw [State.addFault_coreStopped]
    exact Bool.or_true _

/-- Settles O41: the two cases of `padNow`. -/
theorem fmtPadInsertsOneByte : Obligations.FmtPadInsertsOneByte := by
  refine ⟨decodePhase_fmtPad, fun s => ⟨fun r hpad hL hr => ?_, fun hskip => ?_⟩⟩
  · have hrem : s.rem = r := by unfold State.rem; omega
    have hnow : s.padNow = true := (State.padNow_iff s).2 ⟨hpad, by omega⟩
    refine ⟨_, exec_fmtPad_of_inserts hnow (by omega), fun j h => ?_, rfl, rfl, rfl, State.readMsg_congr rfl rfl⟩
    simp only [hrem, Int.toNat_natCast, Vector.getElem_set, eq_comm]
  · have hnow : s.padNow = false := by
      rw [Bool.eq_false_iff, ne_eq, State.padNow_iff]
      rintro ⟨hpad, hlt⟩
      rcases hskip with hins | hfull
      · cases hpad.symm.trans hins
      · omega
    exact ⟨_, exec_fmtPad_of_skips hnow, rfl, rfl, State.readMsg_congr rfl rfl⟩

/-- Settles O42: the two cases of `lenNow`. -/
theorem fmtLenWritesTheBitLength : Obligations.FmtLenWritesTheBitLength := by
  refine ⟨decodePhase_fmtLen, fun s => ⟨fun hpad hlen hL => ?_, fun hskip => ?_⟩⟩
  · have hnow : s.lenNow = true := (State.lenNow_iff s).2 ⟨hpad, hlen, by omega⟩
    refine ⟨_, exec_fmtLen_of_writes hnow, fun k h => ?_, fun j h => ?_, rfl, rfl, rfl, State.readMsg_congr rfl rfl⟩
    · rw [putLength_getElem, if_pos (Nat.le_add_right 56 k), Nat.add_sub_cancel_left, byteOf64_toNat,
        lengthField_toNat]
    · rw [putLength_getElem, if_neg (Nat.not_le.2 h)]
  · have hnow : s.lenNow = false := by
      rw [Bool.eq_false_iff, ne_eq, State.lenNow_iff]
      exact fun ⟨hpad, hlen, hL⟩ => hskip ⟨hpad, hlen, by omega⟩
    exact ⟨_, exec_fmtLen_of_skips hnow, rfl, rfl, State.readMsg_congr rfl rfl⟩

/-- Settles O43: the first 16 words are big-endian words of the block, the others are kept. -/
theorem unpackReadsBigEndian : Obligations.UnpackReadsBigEndian := by
  refine ⟨decodePhase_unpack, fun s => ⟨_, rfl, fun j h => ?_, fun j h hj => ?_, rfl, rfl, rfl,
    State.readMsg_congr rfl rfl⟩⟩
  · rw [unpackInto_getElem, dif_pos h, blockWord, be32_toNat]
  · rw [unpackInto_getElem, dif_neg (Nat.not_lt.2 hj)]

/-! ## The block that the micro-operations build (R102, R108) -/

/-- `blk`, as block `i` of a message of `len` bytes, with 0x80 where the message ends, if that is in this block. -/
def markEnd (blk : Vector Byte 64) (i len : Nat) : Vector Byte 64 :=
  Vector.ofFn fun j => if 64 * i + j.val = len then 0x80#8 else blk[j]

theorem markEnd_getElem (blk : Vector Byte 64) (i len j : Nat) (h : j < 64) :
    (markEnd blk i len)[j] = if 64 * i + j = len then 0x80#8 else blk[j] := by
  simp [markEnd]

theorem markEnd_of_ends_elsewhere {blk : Vector Byte 64} {i len : Nat} (h : len / 64 ≠ i) :
    markEnd blk i len = blk := by
  refine Vector.ext fun j hj => ?_
  rw [markEnd_getElem, if_neg (by omega)]

/-- `s` once FMT_ZERO has run. -/
abbrev State.zeroed (s : State) : State := { s with BLK := Vector.replicate 64 0x00#8, phase := Phase.fmtCopy }

/-- `s` once FMT_COPY has found every byte written. -/
abbrev State.copied (s : State) : State :=
  { s with BLK := copyBytes s (64 * s.i) s.copyCount, phase := Phase.fmtPad }

/-- `s` once FMT_PAD has run, in a run whose flags are as R108 says. -/
abbrev State.marked (s : State) : State :=
  { s with
    BLK := markEnd s.BLK s.i s.L.toNat
    padInserted := decide (s.L.toNat / 64 ≤ s.i)
    phase := Phase.fmtLen }

/-- `s` once FMT_LEN has run, in a run whose flags are as R108 says. -/
abbrev State.finished (s : State) : State :=
  { s with
    BLK := if s.i + 1 = s.N then putLength s.BLK (lengthField s.L) else s.BLK
    lenWritten := decide (s.i + 1 = s.N)
    phase := Phase.unpack }

/-- FMT_COPY of a message that is held finds no unwritten byte. -/
theorem exec_fmtCopy_of_holds {s : State} {msg : List Byte} (hL : s.L.toNat = msg.length) (hmsg : Holds s msg) :
    exec .fmtCopy s = .next s.copied := by
  refine exec_fmtCopy_of_written (State.lowestUnwritten_eq_none.2 fun k hk => ?_)
  rw [s.copyCount_eq] at hk
  have hlt : 64 * s.i + k < msg.length := by omega
  rw [hmsg _ hlt, List.getElem?_eq_getElem hlt]
  rfl

/-- In a zeroed block, FMT_COPY leaves the message's bytes and zeros after them. -/
theorem copyBytes_zero_getElem {s : State} {msg : List Byte} (hL : s.L.toNat = msg.length) (hmsg : Holds s msg)
    (hzero : s.BLK = Vector.replicate 64 0x00#8) {j : Nat} (hj : j < 64) :
    (copyBytes s (64 * s.i) s.copyCount)[j] = msg.getD (64 * s.i + j) 0x00#8 := by
  have hblk : s.BLK[j] = 0x00#8 := by simp [hzero]
  rw [copyBytes_getElem, s.copyCount_eq, hblk, List.getD_eq_getElem?_getD]
  split_ifs with hlt
  · rw [hmsg _ (by omega)]
  · rw [List.getElem?_eq_none (by omega), Option.getD_none]

/-- FMT_PAD before a block's padding step puts 0x80 where the message ends, if it ends in this block; it never stops
there (R105, R108). -/
theorem exec_fmtPad_of_beforePad {s : State} (hp : s.BeforePad) : exec .fmtPad s = .next s.marked := by
  have ⟨_, _, hins, _⟩ := hp
  cases hpad : s.padNow with
  | false =>
    have hkeep : s.L.toNat / 64 ≠ s.i := by
      have hsame := hins.symm.trans (hp.padInserted_of_skips hpad)
      rw [decide_eq_decide] at hsame
      omega
    rw [exec_fmtPad_of_skips hpad, State.marked, markEnd_of_ends_elsewhere hkeep, ← hp.padInserted_of_skips hpad]
  | true =>
    have hlow : ¬s.L.toNat / 64 < s.i :=
      of_decide_eq_false (hins.symm.trans ((State.padNow_iff s).1 hpad).1)
    have hrem : 0 ≤ s.rem ∧ s.rem < 64 :=
      Decidable.not_not.1 (mt (State.no_position_iff hpad).1 (by omega))
    have hmark : s.BLK.set s.rem.toNat 0x80#8 (by omega) = markEnd s.BLK s.i s.L.toNat := by
      refine Vector.ext fun j hj => ?_
      have hplace : s.rem.toNat = j ↔ 64 * s.i + j = s.L.toNat := by
        unfold State.rem at hrem ⊢
        omega
      simp only [Vector.getElem_set, markEnd_getElem, hplace]
    rw [exec_fmtPad_of_inserts hpad hrem, hmark, State.marked, decide_eq_true (State.le_of_padNow hpad)]

/-- FMT_LEN after a block's padding step writes the length field in the last block alone (R106, R108). -/
theorem exec_fmtLen_of_afterPad {s : State} (hp : s.AfterPad) : exec .fmtLen s = .next s.finished := by
  have ⟨_, _, _, hlen⟩ := hp
  rw [State.finished]
  by_cases hlast : s.i + 1 = s.N
  · rw [exec_fmtLen_of_writes (hp.lenNow_eq.trans (decide_eq_true hlast)), if_pos hlast, decide_eq_true hlast]
  · rw [exec_fmtLen_of_skips (hp.lenNow_eq.trans (decide_eq_false hlast)), if_neg hlast, decide_eq_false hlast,
      ← hlen]

/-- Before its length field, the padded message is the message with 0x80 after it, continued by zeros. -/
theorem padded_getD_of_before_length (msg : List Byte) {p : Nat} (hp : p + 8 < 64 * blockCount msg.length) :
    (padded msg).getD p 0x00#8 = if p = msg.length then 0x80#8 else msg.getD p 0x00#8 := by
  rw [List.getD_eq_getElem?_getD, List.getD_eq_getElem?_getD]
  rcases Nat.lt_trichotomy p msg.length with hlt | rfl | hgt
  · rw [padded_getElem?_of_message msg hlt, if_neg hlt.ne, List.getElem?_eq_getElem hlt]
  · rw [padded_getElem?_marker, if_pos rfl, Option.getD_some]
  · rw [padded_getElem?_of_zeros msg hgt hp, if_neg hgt.ne', List.getElem?_eq_none hgt.le, Option.getD_some,
      Option.getD_none]

/-- A block of the padded message: message bytes and zeros, 0x80 where the message ends, and in the last block the
length field over its last 8 bytes. -/
theorem blockAt_padded {msg : List Byte} {i : Nat} (hi : i < blockCount msg.length) {blk : Vector Byte 64}
    (hblk : ∀ j (hj : j < 64), blk[j] = msg.getD (64 * i + j) 0x00#8) :
    blockAt (padded msg) i =
      if i + 1 = blockCount msg.length
      then putLength (markEnd blk i msg.length) (BitVec.ofNat 64 (8 * msg.length))
      else markEnd blk i msg.length := by
  have hbefore (j : Nat) (hj : j < 64) (hp : 64 * i + j + 8 < 64 * blockCount msg.length) :
      (blockAt (padded msg) i)[j] = (markEnd blk i msg.length)[j] := by
    rw [blockAt_getElem, padded_getD_of_before_length msg hp, markEnd_getElem, hblk]
  split_ifs with hlast
  · refine Vector.ext fun j hj => ?_
    rw [putLength_getElem]
    split_ifs with hfield
    · rw [blockAt_getElem, List.getD_eq_getElem?_getD, padded_getElem?_of_length msg (by omega) (by omega),
        Option.getD_some]
      congr 1
      omega
    · exact hbefore j hj (by omega)
  · exact Vector.ext fun j hj => hbefore j hj (by omega)

/-- Whether the core is stopped is read from the record alone (R232). -/
theorem State.coreStopped_congr {s t : State} (h : t.faults = s.faults) : t.coreStopped = s.coreStopped := by
  rw [State.coreStopped, h, State.coreStopped]

/-- A turn of the core in a run, with the tape exhausted. -/
theorem run_succ_of_core {s t : State} (k : Nat) (hturns : s.turns = []) (hrun : s.coreStopped = false)
    (h : exec (decodePhase s.phase) s = .next t) : run (k + 1) s = run k t :=
  run_succ k ((step_of_core hturns hrun).trans h)

/-- Settles O53: the four micro-operations leave the message's bytes and zeros, 0x80 and the length field, as the blocks
of the padded message have them. -/
theorem formattedBlockIsThePaddedMessage : Obligations.FormattedBlockIsThePaddedMessage := by
  intro s msg hphase hturns hrun hp hL hmsg
  have ⟨hrunOk, hi, _, hlen⟩ := hp
  have hrunning {t : State} (h : t.faults = s.faults) : t.coreStopped = false :=
    (State.coreStopped_congr h).trans hrun
  have hN : s.N = blockCount msg.length := hrunOk.2.trans (by rw [hL])
  have hafter : s.zeroed.copied.marked.AfterPad := ⟨hrunOk, hi, rfl, hlen⟩
  have hzero : exec (decodePhase s.phase) s = .next s.zeroed := by rw [hphase]; rfl
  have hcopy : exec .fmtCopy s.zeroed = .next s.zeroed.copied := exec_fmtCopy_of_holds hL hmsg
  have hmark : exec .fmtPad s.zeroed.copied = .next s.zeroed.copied.marked := exec_fmtPad_of_beforePad hp
  have hfinish := exec_fmtLen_of_afterPad hafter
  have hblock : blockAt (padded msg) s.i = s.zeroed.copied.marked.finished.BLK := by
    rw [blockAt_padded (hN ▸ hi) fun j hj => copyBytes_zero_getElem (s := s.zeroed) hL hmsg rfl hj, ← hN, ← hL]
    rfl
  refine ⟨s.zeroed.copied.marked.finished, ?_, rfl, hblock.symm, by rw [← hL], rfl, rfl⟩
  calc run 4 s = run 3 s.zeroed := run_succ_of_core 3 hturns hrun hzero
    _ = run 2 s.zeroed.copied := run_succ_of_core 2 hturns (hrunning rfl) hcopy
    _ = run 1 s.zeroed.copied.marked := run_succ_of_core 1 hturns (hrunning rfl) hmark
    _ = run 0 s.zeroed.copied.marked.finished := run_succ_of_core 0 hturns (hrunning rfl) hfinish

end Sys2Proof.Machine
end

section
/-! PROOFS, 41_functions. One bit of each combinational function: of a rotation and a shift (R131, R132), of the four
sigmas (R134-R137), and of the choice and the majority of three bits (R138, R139). -/

namespace Sys2Proof.Machine

/-- A bit that the right shift keeps comes from b + n, and one that the left shift brings around from b + n - 32. -/
theorem rotr_getLsbD {n b : Nat} (x : Word) (hn : n ≤ 32) (hb : b < 32) :
    (rotr n x).getLsbD b = x.getLsbD ((b + n) % 32) := by
  rw [rotr, BitVec.getLsbD_or, BitVec.getLsbD_ushiftRight, BitVec.getLsbD_shiftLeft, Nat.add_comm n b]
  rcases Nat.lt_or_ge (b + n) 32 with hkept | haround
  · have hlow : b < 32 - n := by omega
    rw [Nat.mod_eq_of_lt hkept]
    simp [hlow]
  · have hhigh : ¬b < 32 - n := by omega
    have hfrom : (b + n) % 32 = b - (32 - n) := by omega
    rw [hfrom, BitVec.getLsbD_of_ge x _ haround]
    simp [hb, hhigh]

theorem shr_getLsbD (n b : Nat) (x : Word) : (shr n x).getLsbD b = x.getLsbD (b + n) := by
  rw [shr, BitVec.getLsbD_ushiftRight, Nat.add_comm]

theorem shr_toNat (n : Nat) (x : Word) : (shr n x).toNat = x.toNat / 2 ^ n := by
  rw [shr, BitVec.toNat_ushiftRight, Nat.shiftRight_eq_div_pow]

/-- Settles O44: ROTR by the two sources of a bit, SHR as the floor that a right shift is. -/
theorem rotateAndShiftBits : Obligations.RotateAndShiftBits := fun n x _ hn =>
  ⟨fun _ hb => rotr_getLsbD x hn.le hb, shr_toNat n x⟩

section
variable {b : Nat} (x y z : Word)

/-- The small sigmas are of this form. -/
theorem rotr_xor_rotr_xor_shr_getLsbD {n m k : Nat} (hn : n ≤ 32) (hm : m ≤ 32) (hb : b < 32) :
    (rotr n x ^^^ rotr m x ^^^ shr k x).getLsbD b =
      ((x.getLsbD ((b + n) % 32) ^^ x.getLsbD ((b + m) % 32)) ^^ x.getLsbD (b + k)) := by
  rw [BitVec.getLsbD_xor, BitVec.getLsbD_xor, rotr_getLsbD x hn hb, rotr_getLsbD x hm hb, shr_getLsbD]

/-- The big sigmas are of this form. -/
theorem rotr_xor_rotr_xor_rotr_getLsbD {n m k : Nat} (hn : n ≤ 32) (hm : m ≤ 32) (hk : k ≤ 32) (hb : b < 32) :
    (rotr n x ^^^ rotr m x ^^^ rotr k x).getLsbD b =
      ((x.getLsbD ((b + n) % 32) ^^ x.getLsbD ((b + m) % 32)) ^^ x.getLsbD ((b + k) % 32)) := by
  rw [BitVec.getLsbD_xor, BitVec.getLsbD_xor, rotr_getLsbD x hn hb, rotr_getLsbD x hm hb, rotr_getLsbD x hk hb]

theorem ch_getLsbD (hb : b < 32) :
    (ch x y z).getLsbD b = if x.getLsbD b then y.getLsbD b else z.getLsbD b := by
  rw [ch, BitVec.getLsbD_xor, BitVec.getLsbD_and, BitVec.getLsbD_and, BitVec.getLsbD_not, decide_eq_true hb]
  cases x.getLsbD b <;> simp

theorem maj_getLsbD : (maj x y z).getLsbD b =
    decide (2 ≤ (x.getLsbD b).toNat + (y.getLsbD b).toNat + (z.getLsbD b).toNat) := by
  rw [maj, BitVec.getLsbD_xor, BitVec.getLsbD_xor, BitVec.getLsbD_and, BitVec.getLsbD_and, BitVec.getLsbD_and]
  generalize x.getLsbD b = p, y.getLsbD b = q, z.getLsbD b = r
  decide +revert

end

/-- Settles O45: each sigma by the sources of its three bits, Ch by x's bit, Maj by the eight cases of three bits. -/
theorem logicalFunctionsBitByBit : Obligations.LogicalFunctionsBitByBit := fun x y z _ hb =>
  ⟨rotr_xor_rotr_xor_shr_getLsbD x (by decide) (by decide) hb,
    rotr_xor_rotr_xor_shr_getLsbD x (by decide) (by decide) hb,
    rotr_xor_rotr_xor_rotr_getLsbD x (by decide) (by decide) (by decide) hb,
    rotr_xor_rotr_xor_rotr_getLsbD x (by decide) (by decide) (by decide) hb,
    ch_getLsbD x y z hb, maj_getLsbD x y z⟩

end Sys2Proof.Machine
end

section
/-! PROOFS, 42_schedule. A word that no later position writes, and the recurrence of R160 in the schedule that a row of
positions leaves; the run of EXPAND is such a row (R161). -/

namespace Sys2Proof.Machine

/-- Settles O46: the one case of EXPAND that has a position. -/
theorem expandComputesOneWord : Obligations.ExpandComputesOneWord := by
  refine ⟨decodePhase_expand, fun s h => ⟨_, exec_expand_of_position h, Vector.getElem_set_self h.2, ?_, rfl, ?_, rfl,
    fun _ => rfl⟩⟩
  · exact fun j hj hne => Vector.getElem_set_ne h.2 hj hne.symm
  · exact if_congr (Nat.succ_inj (b := 63)) rfl rfl

/-! ## The schedule of a row of positions -/

theorem expandAt_getElem_self {w : Vector Word 64} {t : Nat} (h : 16 ≤ t ∧ t < 64) :
    (expandAt w t)[t] = scheduleWord w t h := by
  simp [expandAt, h]

theorem expandAt_getElem_of_ne {w : Vector Word 64} {t j : Nat} (hj : j < 64) (hne : j ≠ t) :
    (expandAt w t)[j] = w[j] := by
  rw [expandAt]
  split_ifs with h
  · exact Vector.getElem_set_ne h.2 hj hne.symm
  · rfl

/-- Rule R160 reads only words below t, so schedules that agree there have the same word at t. -/
theorem scheduleWord_congr {v w : Vector Word 64} {t : Nat} (h : 16 ≤ t ∧ t < 64)
    (heq : ∀ j (_ : j < t), v[j] = w[j]) : scheduleWord v t h = scheduleWord w t h := by
  simp only [scheduleWord, heq _ (show t - 2 < t by omega), heq _ (show t - 7 < t by omega),
    heq _ (show t - 15 < t by omega), heq _ (show t - 16 < t by omega)]

theorem foldl_expandAt_getElem_of_lt (w : Vector Word 64) (n : Nat) {t j : Nat} (hj : j < 64) (hlt : j < t) :
    ((List.range' t n).foldl expandAt w)[j] = w[j] := by
  induction n generalizing t w with
  | zero => rfl
  | succ n ih =>
    rw [List.range'_succ, List.foldl_cons, ih _ (hlt.trans t.lt_succ_self), expandAt_getElem_of_ne hj hlt.ne]

/-- The word written at j follows the rule in the final schedule too: no later position writes the words it read. -/
theorem foldl_expandAt_getElem (w : Vector Word 64) {t n j : Nat} (h : 16 ≤ j ∧ j < 64) (hle : t ≤ j)
    (hlt : j < t + n) :
    ((List.range' t n).foldl expandAt w)[j] = scheduleWord ((List.range' t n).foldl expandAt w) j h := by
  induction n generalizing t w with
  | zero => omega
  | succ n ih =>
    rw [List.range'_succ, List.foldl_cons]
    rcases hle.eq_or_lt with rfl | hafter
    · have hkept (k : Nat) (hk : k < t) : w[k] = ((List.range' (t + 1) n).foldl expandAt (expandAt w t))[k] := by
        rw [foldl_expandAt_getElem_of_lt _ n _ (by omega), expandAt_getElem_of_ne _ hk.ne]
      rw [foldl_expandAt_getElem_of_lt _ n h.2 t.lt_succ_self, expandAt_getElem_self h, scheduleWord_congr h hkept]
    · exact ih _ hafter (by omega)

/-! ## The run of EXPAND -/

/-- What k EXPAND turns make of a state that enters EXPAND with t = 16 (run_expand). -/
def State.expanded (s : State) (k : Nat) : State :=
  { s with
    W := (List.range' 16 k).foldl expandAt s.W
    t := 16 + k
    phase := if 16 + k = 64 then Phase.loadWv else Phase.expand }

theorem State.expanded_zero {s : State} (hphase : s.phase = Phase.expand) (ht : s.t = 16) : s.expanded 0 = s := by
  obtain ⟨⟩ := s
  cases hphase
  cases ht
  rfl

theorem State.expanded_succ_W (s : State) (k : Nat) :
    (s.expanded (k + 1)).W = expandAt (s.expanded k).W (16 + k) := by
  simp only [State.expanded, List.range'_1_concat, List.foldl_append, List.foldl_cons, List.foldl_nil]

theorem exec_expand_expanded (s : State) {k : Nat} (hk : k < 48) :
    exec .expand (s.expanded k) = .next (s.expanded (k + 1)) := by
  have hpos : 16 ≤ (s.expanded k).t ∧ (s.expanded k).t < 64 := ⟨Nat.le_add_right 16 k, Nat.add_lt_add_left hk 16⟩
  have hW : (s.expanded (k + 1)).W = expandAt (s.expanded k).W (s.expanded k).t := s.expanded_succ_W k
  rw [expandAt, dif_pos hpos] at hW
  rw [exec_expand_of_position hpos, ← hW]
  rfl

theorem State.expanded_W_getElem_of_lt (s : State) (k : Nat) {j : Nat} (hj : j < 16) :
    (s.expanded k).W[j] = s.W[j] :=
  foldl_expandAt_getElem_of_lt s.W k _ hj

theorem State.expanded_W_getElem (s : State) {k j : Nat} (hj : j < 48) (hlt : j < k) :
    (s.expanded k).W[j + 16] = scheduleWord (s.expanded k).W (j + 16) (by omega) :=
  foldl_expandAt_getElem s.W (by omega) (by omega) (by omega)

/-- As long as a word is missing, the phase is EXPAND and the next turn of the core writes that word. -/
theorem run_expand {s : State} {k : Nat} (hphase : s.phase = Phase.expand) (ht : s.t = 16) (hturns : s.turns = [])
    (hrun : s.coreStopped = false) (hk : k ≤ 48) : run k s = .next (s.expanded k) := by
  induction k with
  | zero => rw [State.expanded_zero hphase ht]; rfl
  | succ k ih =>
    have hin : (s.expanded k).phase = Phase.expand := if_neg (by omega)
    have hstep : exec (decodePhase (s.expanded k).phase) (s.expanded k) = .next (s.expanded (k + 1)) := by
      rw [hin, decodePhase_expand, exec_expand_expanded s hk]
    rw [run_add k 1 (ih (Nat.le_of_succ_le hk)),
      run_succ_of_core (s := s.expanded k) 0 hturns ((State.coreStopped_congr rfl).trans hrun) hstep]
    rfl

/-- Settles O47: the words of R160 in the state that run_expand gives. -/
theorem expandRunCompletesTheSchedule : Obligations.ExpandRunCompletesTheSchedule := fun s hphase ht hturns hrun =>
  ⟨s.expanded 48, run_expand hphase ht hturns hrun (Nat.le_refl 48),
    fun _ hj => s.expanded_W_getElem_of_lt 48 hj, fun _ hj => s.expanded_W_getElem hj hj,
    rfl, rfl, rfl⟩

end Sys2Proof.Machine
end

section
/-! PROOFS, 43_compress. LOAD_WV, ROUND, FOLD and FINAL, each by its one case (R170-R173, R175); and the run of ROUND,
which composes the rounds on the words of the schedule (R161, R172). -/

namespace Sys2Proof.Machine

/-! ## Each micro-operation of the compressor -/

/-- Settles O48: the meaning has one case. -/
theorem loadWvCopiesTheHash : Obligations.LoadWvCopiesTheHash :=
  ⟨decodePhase_loadWv, fun _ => ⟨_, rfl, fun _ _ => rfl, rfl, rfl, rfl, State.readMsg_congr rfl rfl⟩⟩

/-- Settles O49: the one case of ROUND that has a position, whose T1 and T2 are of the old a..h. -/
theorem roundIsTheParallelAssignment : Obligations.RoundIsTheParallelAssignment :=
  ⟨decodePhase_round, fun s h =>
    ⟨_, roundT1 s.WV kRom[s.t] s.W[s.t], roundT2 s.WV, exec_round_of_position h, rfl, rfl,
      rfl, rfl, rfl, rfl, rfl, rfl, rfl, rfl, rfl, if_congr (Nat.succ_inj (b := 63)) rfl rfl, rfl,
      State.readMsg_congr rfl rfl⟩⟩

/-- Settles O51: each hash word is a sum of two words of 32 bits. -/
theorem foldAddsModulo : Obligations.FoldAddsModulo :=
  ⟨decodePhase_fold, fun s => ⟨_, rfl, fun j hj => by rw [foldState_getElem, BitVec.toNat_add], rfl, rfl,
    State.readMsg_congr rfl rfl⟩⟩

/-! ## The digest's bytes (R55, R56) -/

theorem digestBytes_getElem_word (h : Vector Word 8) {j k : Nat} (hj : j < 8) (hk : k < 4) :
    (digestBytes h)[4 * j + k] = byteOf h[j] k := by
  have hword : (4 * j + k) / 4 = j := by omega
  have hbyte : (4 * j + k) % 4 = k := by omega
  simp only [digestBytes_getElem, hword, hbyte]

/-- The four bytes of a word, most significant first, are the word. -/
theorem be32_byteOf (x : Word) : be32 (byteOf x 0) (byteOf x 1) (byteOf x 2) (byteOf x 3) = x := by
  refine BitVec.eq_of_toNat_eq ?_
  rw [be32_toNat, byteOf_toNat, byteOf_toNat, byteOf_toNat, byteOf_toNat]
  have := x.isLt
  omega

/-- DIGESTj of a serialised hash state is its word j (R34). -/
theorem digestWord_digestBytes (h : Vector Word 8) (j : BitVec 3) :
    digestWord (digestBytes h) j = h[j.toNat]'j.isLt := by
  have hbyte (k : Nat) (hk : k < 4) := digestBytes_getElem_word h j.isLt hk
  refine Eq.trans ?_ (be32_byteOf _)
  rw [← hbyte 0 (by decide), ← hbyte 1 (by decide), ← hbyte 2 (by decide), ← hbyte 3 (by decide)]
  rfl

theorem State.status_of_done {s : State} (h : s.phase = Phase.done) : s.status = 2#32 := by
  simp [State.status, State.isDone, State.busy, h]

/-- Settles O52: DOUT holds the bytes of H, which RD_DIGEST puts together again. -/
theorem finalSerialisesBigEndian : Obligations.FinalSerialisesBigEndian := by
  refine ⟨decodePhase_final, fun s => ⟨_, rfl, fun j hj k hk => ?_, fun j hj => ?_, rfl, rfl,
    State.status_of_done rfl, rfl, State.readMsg_congr rfl rfl⟩⟩
  · rw [digestBytes_getElem_word s.H hj hk, byteOf_toNat]
  · have hindex : (BitVec.ofNat 3 j).toNat = j := Nat.mod_eq_of_lt hj
    refine ⟨_, exec_rdDigest_of_written rfl, ?_⟩
    simp only [State.respond_rdata, digestWord_digestBytes, hindex]

/-! ## The run of ROUND -/

/-- ROUND at a position is the round of rule R172 at that position. -/
theorem exec_round_roundAt {s : State} (h : s.t < 64) :
    exec .round s = .next { s with
      WV := roundAt s.W s.WV s.t, t := s.t + 1
      phase := if s.t + 1 = 64 then Phase.fold else Phase.round } := by
  rw [exec_round_of_position h, roundAt, dif_pos h]

theorem foldl_roundAt_succ (w : Vector Word 64) (v : Vector Word 8) (k : Nat) :
    (List.range (k + 1)).foldl (roundAt w) v = roundAt w ((List.range k).foldl (roundAt w) v) k := by
  rw [List.range_succ, List.foldl_concat]

/-- What k ROUND turns make of a state that enters ROUND with t = 0 (run_round). -/
def State.rounded (s : State) (k : Nat) : State :=
  { s with
    WV := (List.range k).foldl (roundAt s.W) s.WV
    t := k
    phase := if k = 64 then Phase.fold else Phase.round }

theorem State.rounded_zero {s : State} (hphase : s.phase = Phase.round) (ht : s.t = 0) : s.rounded 0 = s := by
  obtain ⟨⟩ := s
  cases hphase
  cases ht
  rfl

theorem exec_round_rounded (s : State) {k : Nat} (hk : k < 64) :
    exec .round (s.rounded k) = .next (s.rounded (k + 1)) := by
  have hWV : roundAt (s.rounded k).W (s.rounded k).WV (s.rounded k).t = (s.rounded (k + 1)).WV :=
    (foldl_roundAt_succ s.W s.WV k).symm
  rw [exec_round_roundAt (s := s.rounded k) hk, hWV]
  rfl

/-- As long as a round is missing, the phase is ROUND and the next turn of the core runs that round. -/
theorem run_round {s : State} {k : Nat} (hphase : s.phase = Phase.round) (ht : s.t = 0) (hturns : s.turns = [])
    (hrun : s.coreStopped = false) (hk : k ≤ 64) : run k s = .next (s.rounded k) := by
  induction k with
  | zero => rw [State.rounded_zero hphase ht]; rfl
  | succ k ih =>
    have hin : (s.rounded k).phase = Phase.round := if_neg (by omega)
    have hstep : exec (decodePhase (s.rounded k).phase) (s.rounded k) = .next (s.rounded (k + 1)) := by
      rw [hin, decodePhase_round, exec_round_rounded s hk]
    rw [run_add k 1 (ih (Nat.le_of_succ_le hk)),
      run_succ_of_core (s := s.rounded k) 0 hturns ((State.coreStopped_congr rfl).trans hrun) hstep]
    rfl

/-- Settles O50: the state that run_round gives. -/
theorem roundRunComposesSixtyFourRounds : Obligations.RoundRunComposesSixtyFourRounds :=
  fun s hphase ht hturns hrun =>
  ⟨s.rounded 64, run_round hphase ht hturns hrun (Nat.le_refl 64), rfl, rfl, rfl, rfl⟩

end Sys2Proof.Machine
end

section
/-! PROOFS, 43_compress, whole runs (R176, R196). One predicate says where a run over a message stands after n turns of
the core since INIT, and what its registers then hold; every turn of the core advances it by one, every turn of the host
that leaves the message bytes alone keeps it, and at 120 N + 1 it says DONE with the digest. -/

namespace Sys2Proof.Machine

/-! ## The schedule and the hash state, block by block (R176) -/

theorem messageSchedule_getElem_of_lt (blk : Vector Byte 64) {j : Nat} (hj : j < 16) :
    (messageSchedule blk)[j] = blockWord blk j hj := by
  rw [messageSchedule, foldl_expandAt_getElem_of_lt _ 48 (by omega) hj, unpackInto_getElem, dif_pos hj]

theorem messageSchedule_getElem (blk : Vector Byte 64) {j : Nat} (h : 16 ≤ j ∧ j < 64) :
    (messageSchedule blk)[j] = scheduleWord (messageSchedule blk) j h :=
  foldl_expandAt_getElem _ h h.1 h.2

theorem hashBlocks_succ (msg : List Byte) (n : Nat) :
    hashBlocks msg (n + 1) = compressBlock (hashBlocks msg n) (blockAt (padded msg) n) := by
  rw [hashBlocks, List.range_succ, List.foldl_concat, hashBlocks]

/-- The schedule of block i of the padded message. -/
abbrev blockSchedule (msg : List Byte) (i : Nat) : Vector Word 64 := messageSchedule (blockAt (padded msg) i)

/-! ## Where a run stands -/

/-- What the datapath holds in a run over `msg` whose next micro-operation is the given one. -/
def State.Registers (s : State) (msg : List Byte) : Instr → Prop
  | .fmtZero | .final => s.H = hashBlocks msg s.i
  | .fmtCopy => s.H = hashBlocks msg s.i ∧ s.BLK = Vector.replicate 64 0x00#8
  | .fmtPad => s.H = hashBlocks msg s.i ∧ s.BLK = blockAt msg s.i
  | .fmtLen => s.H = hashBlocks msg s.i ∧ s.BLK = markEnd (blockAt msg s.i) s.i msg.length
  | .unpack => s.H = hashBlocks msg s.i ∧ s.BLK = blockAt (padded msg) s.i
  | .expand => s.H = hashBlocks msg s.i ∧ ∀ j (_ : j < s.t) (_ : j < 64), s.W[j] = (blockSchedule msg s.i)[j]
  | .loadWv => s.H = hashBlocks msg s.i ∧ s.W = blockSchedule msg s.i
  | .round => s.H = hashBlocks msg s.i ∧ s.W = blockSchedule msg s.i ∧
      s.WV = (List.range s.t).foldl (roundAt s.W) s.H
  | .fold => s.H = hashBlocks msg s.i ∧ s.WV = (List.range 64).foldl (roundAt (blockSchedule msg s.i)) s.H
  | .next => s.H = hashBlocks msg (s.i + 1)
  | .done => s.DOUT = sha256 msg
  | _ => False

/-- How many turns the core has taken since INIT when its next micro-operation is the given one: 120 for each block
done (R196), and those of the block in work. -/
def State.turnsTaken (s : State) : Instr → Nat
  | .fmtCopy | .done => 120 * s.i + 1
  | .fmtPad => 120 * s.i + 2
  | .fmtLen => 120 * s.i + 3
  | .unpack => 120 * s.i + 4
  | .expand => 120 * s.i + 5 + (s.t - 16)
  | .loadWv => 120 * s.i + 53
  | .round => 120 * s.i + 54 + s.t
  | .fold => 120 * s.i + 118
  | .next => 120 * s.i + 119
  | _ => 120 * s.i

/-- A core that is not stopped stands before micro-operation `i` of a run over `msg`, `n` turns after its INIT. -/
structure State.Stands (s : State) (msg : List Byte) (i : Instr) (n : Nat) : Prop where
  running : s.coreStopped = false
  length : s.L.toNat = msg.length
  blocks : s.N = blockCount msg.length
  holds : Holds s msg
  position : s.PositionFor i
  registers : s.Registers msg i
  taken : n = s.turnsTaken i

/-- The same, before the micro-operation that the phase selects. -/
abbrev State.Runs (s : State) (msg : List Byte) (n : Nat) : Prop := s.Stands msg (decodePhase s.phase) n

/-- Micro-operation `i` leads to a state that stands `n` turns after INIT. -/
abbrev State.AdvancesTo (s : State) (msg : List Byte) (i : Instr) (n : Nat) : Prop :=
  ∃ t, exec i s = .next t ∧ t.Runs msg n

/-! ## Every micro-operation of a run advances it by one turn -/

section
variable {s t : State} {msg : List Byte} {i : Instr} {n : Nat}

/-- `s` once INIT has begun a run over the LEN bytes (R192). -/
abbrev State.started (s : State) : State :=
  { s with
    L := s.LEN, H := ivRom, N := blockCount s.LEN.toNat, i := 0, padInserted := false, lenWritten := false
    phase := Phase.fmtZero }

theorem exec_decodePhase_of_init (hphase : s.phase = Phase.init) (hfits : s.LEN.toNat ≤ s.msgCap) :
    exec (decodePhase s.phase) s = .next s.started := by
  rw [hphase, decodePhase_init, exec_init_of_fits hfits]

theorem State.busy_of_init (hphase : s.phase = Phase.init) : s.busy = true := by
  simp [State.busy, hphase]

theorem State.started_runs (hrun : s.coreStopped = false) (hlen : s.LEN.toNat = msg.length)
    (hcap : msg.length ≤ s.msgCap) (hmsg : Holds s msg) : s.started.Runs msg 0 where
  running := hrun
  length := hlen
  blocks := congrArg blockCount hlen
  holds := hmsg
  position := ⟨⟨hlen.trans_le hcap, rfl⟩, blockCount_pos _, by simp, rfl⟩
  registers := rfl
  taken := rfl

/-- What a micro-operation of a run after INIT leaves as it was. -/
abbrev State.SameRun (s t : State) : Prop :=
  t.faults = s.faults ∧ t.L = s.L ∧ t.N = s.N ∧ t.MSG = s.MSG ∧ t.msgCap = s.msgCap

/-- The parts of `Stands` that no micro-operation after INIT touches, carried along once for all of them. -/
theorem State.Stands.advancesTo {j : Instr} (h : s.Stands msg i n) (hexec : exec i s = .next t)
    (hphase : decodePhase t.phase = j) (hposition : t.PositionFor j) (hregisters : t.Registers msg j)
    (htaken : t.turnsTaken j = s.turnsTaken i + 1) (hsame : s.SameRun t := by exact ⟨rfl, rfl, rfl, rfl, rfl⟩) :
    s.AdvancesTo msg i (n + 1) := by
  obtain ⟨hfaults, hL, hN, hMSG, hcap⟩ := hsame
  refine ⟨t, hexec, ?_⟩
  rw [State.Runs, hphase]
  exact {
    running := (State.coreStopped_congr hfaults).trans h.running
    length := hL ▸ h.length
    blocks := hN.trans h.blocks
    holds := fun k hk => (State.readMsg_congr hMSG hcap k).trans (h.holds k hk)
    position := hposition
    registers := hregisters
    taken := by rw [htaken, h.taken] }

theorem State.Stands.advances_fmtZero (h : s.Stands msg .fmtZero n) : s.AdvancesTo msg .fmtZero (n + 1) :=
  h.advancesTo (t := s.zeroed) rfl decodePhase_fmtCopy h.position ⟨h.registers, rfl⟩ rfl

theorem State.Stands.advances_fmtCopy (h : s.Stands msg .fmtCopy n) : s.AdvancesTo msg .fmtCopy (n + 1) := by
  obtain ⟨hH, hzero⟩ := h.registers
  have hposition : s.BeforePad := h.position
  have hblk : s.copied.BLK = blockAt msg s.i := Vector.ext fun j hj => by
    rw [blockAt_getElem, copyBytes_zero_getElem h.length h.holds hzero hj]
  exact h.advancesTo (exec_fmtCopy_of_holds h.length h.holds) decodePhase_fmtPad hposition
    ⟨hH, hblk⟩ rfl

theorem State.Stands.advances_fmtPad (h : s.Stands msg .fmtPad n) : s.AdvancesTo msg .fmtPad (n + 1) := by
  obtain ⟨hH, hblk⟩ := h.registers
  obtain ⟨hrunOk, hi, _, hlen⟩ := h.position
  have hmark : s.marked.BLK = markEnd (blockAt msg s.i) s.i msg.length := by rw [← hblk, ← h.length]
  exact h.advancesTo (exec_fmtPad_of_beforePad h.position) decodePhase_fmtLen
    ⟨hrunOk, hi, rfl, hlen⟩ ⟨hH, hmark⟩ rfl

theorem State.Stands.advances_fmtLen (h : s.Stands msg .fmtLen n) : s.AdvancesTo msg .fmtLen (n + 1) := by
  obtain ⟨hH, hblk⟩ := h.registers
  obtain ⟨hrunOk, hi, hins, _⟩ := h.position
  have hpadded : s.finished.BLK = blockAt (padded msg) s.i := by
    rw [blockAt_padded (h.blocks ▸ hi) fun j hj => blockAt_getElem msg s.i j hj, ← hblk, ← h.blocks, ← h.length]
    rfl
  exact h.advancesTo (exec_fmtLen_of_afterPad h.position) decodePhase_unpack
    ⟨hrunOk, hi, hins, rfl⟩ ⟨hH, hpadded⟩ rfl

theorem State.Stands.advances_unpack (h : s.Stands msg .unpack n) : s.AdvancesTo msg .unpack (n + 1) := by
  obtain ⟨hH, hblk⟩ := h.registers
  have hW (j : Nat) (hj : j < 16) (_ : j < 64) :
      (unpackInto s.BLK s.W)[j] = (blockSchedule msg s.i)[j] := by
    rw [messageSchedule_getElem_of_lt _ hj, unpackInto_getElem, dif_pos hj, hblk]
  exact h.advancesTo rfl decodePhase_expand ⟨h.position, by simp⟩ ⟨hH, hW⟩ rfl

/-- The word that EXPAND writes is the schedule's: rule R160 reads only words below t, which agree already. -/
theorem State.Stands.advances_expand (h : s.Stands msg .expand n) : s.AdvancesTo msg .expand (n + 1) := by
  obtain ⟨hH, hW⟩ := h.registers
  obtain ⟨hformatted, hpos⟩ := h.position
  have hword : scheduleWord s.W s.t hpos = (blockSchedule msg s.i)[s.t] := by
    rw [messageSchedule_getElem _ hpos, scheduleWord_congr hpos fun j hj => hW j hj _]
  have hW' (j : Nat) (hj : j < s.t + 1) (hj64 : j < 64) :
      (s.W.set s.t (scheduleWord s.W s.t hpos) hpos.2)[j] = (blockSchedule msg s.i)[j] := by
    rw [Vector.getElem_set, hword]
    split_ifs with heq
    · simp only [heq]
    · exact hW j (by omega) hj64
  have hexec := exec_expand_of_position hpos
  by_cases hlast : s.t + 1 = 64
  · have htaken : 120 * s.i + 53 = 120 * s.i + 5 + (s.t - 16) + 1 := by omega
    exact h.advancesTo hexec (congrArg decodePhase (if_pos hlast)) ⟨hformatted, hlast⟩
      ⟨hH, Vector.ext fun j hj => hW' j (hlast.symm ▸ hj) hj⟩ htaken
  · have htaken : 120 * s.i + 5 + (s.t + 1 - 16) = 120 * s.i + 5 + (s.t - 16) + 1 := by omega
    exact h.advancesTo hexec (congrArg decodePhase (if_neg hlast))
      ⟨hformatted, Nat.le_succ_of_le hpos.1, Nat.lt_of_le_of_ne hpos.2 hlast⟩ ⟨hH, hW'⟩ htaken

theorem State.Stands.advances_loadWv (h : s.Stands msg .loadWv n) : s.AdvancesTo msg .loadWv (n + 1) := by
  obtain ⟨hH, hW⟩ := h.registers
  obtain ⟨hformatted, _⟩ := h.position
  exact h.advancesTo rfl decodePhase_round ⟨hformatted, Nat.zero_lt_succ 63⟩
    ⟨hH, hW, rfl⟩ rfl

theorem State.Stands.advances_round (h : s.Stands msg .round n) : s.AdvancesTo msg .round (n + 1) := by
  obtain ⟨hH, hW, hWV⟩ := h.registers
  obtain ⟨hformatted, hpos⟩ := h.position
  have hWV' : roundAt s.W s.WV s.t = (List.range (s.t + 1)).foldl (roundAt s.W) s.H := by
    rw [foldl_roundAt_succ, ← hWV]
  have hexec := exec_round_roundAt hpos
  by_cases hlast : s.t + 1 = 64
  · have hall : roundAt s.W s.WV s.t = (List.range 64).foldl (roundAt (blockSchedule msg s.i)) s.H := by
      rw [hWV', hlast, hW]
    have htaken : 120 * s.i + 118 = 120 * s.i + 54 + s.t + 1 := by omega
    exact h.advancesTo hexec (congrArg decodePhase (if_pos hlast)) ⟨hformatted, hlast⟩
      ⟨hH, hall⟩ htaken
  · exact h.advancesTo hexec (congrArg decodePhase (if_neg hlast))
      ⟨hformatted, Nat.lt_of_le_of_ne hpos hlast⟩ ⟨hH, hW, hWV'⟩ rfl

theorem State.Stands.advances_fold (h : s.Stands msg .fold n) : s.AdvancesTo msg .fold (n + 1) := by
  obtain ⟨hH, hWV⟩ := h.registers
  have hnext : foldState s.H s.WV = hashBlocks msg (s.i + 1) := by
    rw [hashBlocks_succ, compressBlock, ← hH, ← hWV]
  exact h.advancesTo rfl decodePhase_next h.position hnext rfl

/-- NEXT leads to the next block or to FINAL, with the same hash state and the same count. -/
theorem State.Stands.advances_next (h : s.Stands msg .next n) : s.AdvancesTo msg .next (n + 1) := by
  obtain ⟨hformatted, ht⟩ := h.position
  have ⟨⟨_, hN⟩, hi, _⟩ := hformatted
  have hcounters : s.CountersOk := ⟨ht.le, hi.le, hN.trans_le (blockCount_le s.L)⟩
  obtain ⟨_, hposition⟩ := exec_next_position hcounters hformatted ht rfl
  have hphase : decodePhase (if s.i + 1 < s.N then Phase.fmtZero else Phase.final) =
      if s.i + 1 < s.N then .fmtZero else .final := apply_ite decodePhase _ _ _
  exact h.advancesTo rfl hphase (hphase ▸ hposition) (by split_ifs <;> exact h.registers) (by split_ifs <;> rfl)

theorem State.Stands.advances_final (h : s.Stands msg .final n) : s.AdvancesTo msg .final (n + 1) := by
  obtain ⟨hdone, ht⟩ := h.position
  have ⟨_, hblocks, _⟩ := hdone
  have hdigest : digestBytes s.H = sha256 msg := by
    rw [sha256, ← h.blocks, ← hblocks, ← h.registers]
  exact h.advancesTo rfl decodePhase_done ⟨hdone, ht, rfl⟩ hdigest rfl

theorem State.Stands.advances (h : s.Stands msg i n) (hi : i ≠ .done) : s.AdvancesTo msg i (n + 1) := by
  cases i with
  | fmtZero => exact h.advances_fmtZero
  | fmtCopy => exact h.advances_fmtCopy
  | fmtPad => exact h.advances_fmtPad
  | fmtLen => exact h.advances_fmtLen
  | unpack => exact h.advances_unpack
  | expand => exact h.advances_expand
  | loadWv => exact h.advances_loadWv
  | round => exact h.advances_round
  | fold => exact h.advances_fold
  | next => exact h.advances_next
  | final => exact h.advances_final
  | done => exact absurd rfl hi
  | _ => exact h.registers.elim

/-! ## A run stands at DONE exactly after 120 N + 1 turns -/

theorem State.Stands.taken_of_done (h : s.Stands msg .done n) : n = 120 * blockCount msg.length + 1 := by
  obtain ⟨⟨_, hi, _⟩, _⟩ := h.position
  rw [h.taken, ← h.blocks, ← hi]
  rfl

theorem State.Stands.taken_le (h : s.Stands msg i n) (hi : i ≠ .done) : n ≤ 120 * blockCount msg.length := by
  obtain ⟨_, _, hN, _, hposition, hregisters, rfl⟩ := h
  rw [← hN]
  cases i with
  | fmtZero | fmtCopy | fmtPad | fmtLen | unpack =>
    obtain ⟨_, hblock, _⟩ := hposition
    simp only [State.turnsTaken]
    omega
  | expand | loadWv | round | fold | next =>
    obtain ⟨⟨_, hblock, _⟩, ht⟩ := hposition
    simp only [State.turnsTaken]
    omega
  | final =>
    obtain ⟨⟨_, hblocks, _⟩, _⟩ := hposition
    simp only [State.turnsTaken]
    omega
  | done => exact absurd rfl hi
  | _ => exact hregisters.elim

theorem State.Runs.not_done (h : s.Runs msg n) (hn : n ≤ 120 * blockCount msg.length) :
    decodePhase s.phase ≠ .done := by
  intro hdone
  have := (hdone ▸ h : s.Stands msg .done n).taken_of_done
  omega

theorem State.Runs.busy (h : s.Runs msg n) (hn : n ≤ 120 * blockCount msg.length) : s.busy = true := by
  refine State.busy_of_decodePhase (fun hidle => ?_) (h.not_done hn)
  have hregisters := h.registers
  rw [hidle] at hregisters
  exact hregisters

theorem decodePhase_eq_done {c : BitVec 4} (h : decodePhase c = .done) : c = Phase.done := by
  revert c; decide

theorem State.Runs.digest (h : s.Runs msg (120 * blockCount msg.length + 1)) :
    s.phase = Phase.done ∧ s.DOUT = sha256 msg ∧ s.doutWritten = true := by
  have hdone : decodePhase s.phase = .done := by
    by_contra hne
    have := h.taken_le hne
    omega
  have hposition := h.position
  have hdigest := h.registers
  rw [hdone] at hposition hdigest
  obtain ⟨_, _, hwritten⟩ := hposition
  exact ⟨decodePhase_eq_done hdone, hdigest, hwritten⟩

/-! ## A run with the tape exhausted -/

/-- What an uninterrupted run leaves as it was: the host's part of the state, the record and the tape. -/
def State.hostSide (s : State) : List Host.Cell × Word × Word × List FaultRec × Option Word × List Turn :=
  (s.MSG, s.LEN_LO, s.LEN_HI, s.faults, s.rdata, s.turns)

theorem State.hostSide_eq_iff : t.hostSide = s.hostSide ↔ t.MSG = s.MSG ∧ t.LEN_LO = s.LEN_LO ∧
    t.LEN_HI = s.LEN_HI ∧ t.faults = s.faults ∧ t.rdata = s.rdata ∧ t.turns = s.turns := by
  simp only [State.hostSide, Prod.mk.injEq]

/-- A micro-operation that does not stop the core leaves the record as it was (R232). -/
theorem CoreEffect.faults_of_running (e : CoreEffect i s t) (hrun : t.coreStopped = false) : t.faults = s.faults := by
  cases e with
  | fault f hf =>
    rw [State.addFault_coreStopped, hf, Bool.or_true] at hrun
    cases hrun
  | writes _ hframe => exact (congrArg State.faults hframe :)

theorem CoreEffect.hostSide_of_running (e : CoreEffect i s t) (hrun : t.coreStopped = false) :
    t.hostSide = s.hostSide := by
  obtain ⟨hmsg, hlo, hhi, _, hrdata, hturns⟩ := e.hostSide
  exact State.hostSide_eq_iff.2 ⟨hmsg, hlo, hhi, e.faults_of_running hrun, hrdata, hturns⟩

/-- With the tape exhausted each step is a turn of the core, up to the one that enters DONE (R196). -/
theorem run_of_exhausted {k : Nat} (h : s.Runs msg n) (hturns : s.turns = [])
    (hk : n + k ≤ 120 * blockCount msg.length + 1) :
    ∃ t, run k s = .next t ∧ t.Runs msg (n + k) ∧ t.hostSide = s.hostSide := by
  induction k with
  | zero => exact ⟨s, rfl, h, rfl⟩
  | succ k ih =>
    obtain ⟨t, hto, ht, hside⟩ := ih (by omega)
    obtain ⟨_, _, _, _, _, htturns⟩ := State.hostSide_eq_iff.1 hside
    obtain ⟨u, hu, hruns⟩ := ht.advances (ht.not_done (by omega))
    have e := exec_coreEffect (decodePhase_isCore _) hu
    refine ⟨u, ?_, hruns, (e.hostSide_of_running hruns.running).trans hside⟩
    rw [run_add k 1 hto, run_succ_of_core 0 (htturns.trans hturns) ht.running hu]
    rfl

/-! ## A run with the host's turns in between -/

/-- A busy core stands where it stood after a transaction that leaves its message bytes alone (R42, R263, R265). -/
theorem State.Runs.hostEffect {j : Instr} (h : s.Runs msg n) (e : HostEffect j s t) (hbusy : s.busy = true)
    (hstable : ∀ idx a data, j = .wrMsg idx a data → msg.length ≤ a) : t.Runs msg n := by
  have hrun : t.coreStopped = false := e.coreStopped.trans h.running
  have hmsg : Holds t msg := fun k hk => by
    rw [e.readMsg k fun idx data hj => absurd (hstable idx k data hj) (Nat.not_le.2 hk), h.holds k hk]
  cases e with
  | start _ _ _ hidle => cases hidle.symm.trans hbusy
  | _ => exact ⟨hrun, h.length, h.blocks, hmsg, h.position, h.registers, h.taken⟩

theorem StopsAt.isCore {f : Fault} (h : StopsAt s i f) : i.isCore = true := by
  cases h <;> rfl

theorem exec_decodeRequest_next (r : HostReq) (s : State) : ∃ t, exec (decodeRequest r) s = .next t := by
  rcases exec_next_or_stopsAt (decodeRequest r) s with hnext | ⟨f, hstop⟩
  · exact hnext
  · cases hstop.isCore.symm.trans (decodeRequest_isCore r)

theorem Turn.le_of_stable {r : HostReq} {len a : Nat} {idx : BitVec 4} {data : Word}
    (h : (Turn.host r).stable len = true) (hr : decodeRequest r = .wrMsg idx a data) : len ≤ a := by
  simpa [Turn.stable, hr] using h

/-- One turn of a tape that keeps the host's duty (R263), before DONE. -/
theorem State.Runs.step {u : Turn} {us : List Turn} (h : s.Runs msg n) (hturns : s.turns = u :: us)
    (hu : u.stable msg.length = true) (hn : n ≤ 120 * blockCount msg.length) :
    ∃ t, step s = .next t ∧ t.Runs msg (n + [u].count .core) ∧ t.turns = us := by
  have h' : ({ s with turns := us } : State).Runs msg n :=
    ⟨h.running, h.length, h.blocks, h.holds, h.position, h.registers, h.taken⟩
  cases u with
  | core =>
    obtain ⟨t, ht, hruns⟩ := h'.advances (h'.not_done hn)
    have e := exec_coreEffect (decodePhase_isCore _) ht
    obtain ⟨_, _, _, _, _, htturns⟩ := e.hostSide
    exact ⟨t, (step_of_core_turn hturns h.running).trans ht, hruns, htturns⟩
  | host r =>
    obtain ⟨t, ht⟩ := exec_decodeRequest_next r { s with turns := us }
    have e := exec_hostEffect (decodeRequest_isCore r) ht
    have htturns : t.turns = us := by cases e <;> rfl
    exact ⟨t, (step_of_host_turn hturns).trans ht,
      h'.hostEffect e (h'.busy hn) fun _ _ _ => Turn.le_of_stable hu, htturns⟩
  | reset => cases hu

/-- The turn of the core that begins the run. -/
theorem step_of_init_turn {us : List Turn} (hturns : s.turns = .core :: us) (hphase : s.phase = Phase.init)
    (hrun : s.coreStopped = false) (hlen : s.LEN.toNat = msg.length) (hcap : msg.length ≤ s.msgCap)
    (hmsg : Holds s msg) : ∃ t, step s = .next t ∧ t.Runs msg 0 ∧ t.turns = us := by
  have hinit := exec_decodePhase_of_init (s := { s with turns := us }) hphase (hlen.trans_le hcap)
  exact ⟨_, (step_of_core_turn hturns hrun).trans hinit,
    State.started_runs (s := { s with turns := us }) hrun hlen hcap hmsg, rfl⟩

/-- After k turns of such a tape the run has taken as many more turns as the core had among them. -/
theorem run_of_interleaved {ts rest : List Turn} {k : Nat} (h : s.Runs msg n) (hturns : s.turns = ts ++ rest)
    (hstable : ∀ u ∈ ts, u.stable msg.length = true) (hn : n + ts.count .core ≤ 120 * blockCount msg.length)
    (hk : k ≤ ts.length) :
    ∃ t, run k s = .next t ∧ t.Runs msg (n + (ts.take k).count .core) ∧ t.turns = ts.drop k ++ rest := by
  induction k with
  | zero => exact ⟨s, rfl, h, hturns⟩
  | succ k ih =>
    obtain ⟨t, hto, ht, htturns⟩ := ih (Nat.le_of_succ_le hk)
    have hcount : (ts.take k).count .core ≤ ts.count .core := (List.take_sublist k ts).count_le _
    rw [List.drop_eq_getElem_cons hk, List.cons_append] at htturns
    obtain ⟨u, hu, hruns, huturns⟩ := ht.step htturns (hstable _ (List.getElem_mem hk)) (by omega)
    refine ⟨u, ?_, ?_, huturns⟩
    · rw [run_add k 1 hto, run_succ 0 hu]
      rfl
    · rwa [List.take_succ_eq_append_getElem hk, List.count_append, ← Nat.add_assoc]

end

/-! ## The digest -/

/-- Settles O54: INIT begins a run that has taken no turn, and 120 N + 1 turns later it stands at DONE. -/
theorem uninterruptedRunHashesTheMessage : Obligations.UninterruptedRunHashesTheMessage := by
  intro s msg hphase hturns hrun hlen hcap hmsg
  have hstart : s.started.Runs msg 0 := State.started_runs hrun hlen hcap hmsg
  have hinit := exec_decodePhase_of_init hphase (hlen.trans_le hcap)
  have hfirst (k : Nat) : run (k + 1) s = run k s.started := run_succ_of_core k hturns hrun hinit
  obtain ⟨t, hto, ht, hside⟩ :=
    run_of_exhausted (k := 120 * blockCount msg.length + 1) hstart hturns (by omega)
  obtain ⟨hdone, hdigest, hwritten⟩ := State.Runs.digest (Nat.zero_add _ ▸ ht)
  obtain ⟨hMSG, hlo, hhi, hfaults, hrdata, _⟩ := State.hostSide_eq_iff.1 hside
  refine ⟨t, (hfirst _).trans hto, hdone, hdigest, hwritten, hMSG, hlo, hhi, hfaults, hrdata, fun k hk => ?_⟩
  cases k with
  | zero => exact ⟨s, rfl, State.busy_of_init hphase⟩
  | succ k =>
    obtain ⟨u, hto, hu, _⟩ := run_of_exhausted (k := k) hstart hturns (by omega)
    exact ⟨u, (hfirst k).trans hto, hu.busy (by omega)⟩

/-- Settles O55: the tape's turns up to the last take the run through 120 N turns of the core, and its last, a turn of
the core, is FINAL's. -/
theorem everyInterleavingHashesTheMessage : Obligations.EveryInterleavingHashesTheMessage := by
  intro s msg ts rest hphase hrun hlen hcap hmsg hturns hstable hcount
  obtain ⟨s', hinit, hstart, hturns'⟩ := step_of_init_turn hturns hphase hrun hlen hcap hmsg
  have hfirst (k : Nat) : run (k + 1) s = run k s' := run_succ k hinit
  have hbetween {k : Nat} (hk : k ≤ ts.length) := run_of_interleaved hstart hturns' hstable (by omega) hk
  obtain ⟨t, hto, ht, htturns⟩ := hbetween (Nat.le_refl _)
  rw [List.take_length, hcount, Nat.zero_add] at ht
  rw [List.drop_length, List.nil_append] at htturns
  obtain ⟨u, hu, hruns, huturns⟩ := ht.step htturns rfl (Nat.le_refl _)
  obtain ⟨hdone, hdigest, hwritten⟩ := hruns.digest
  refine ⟨u, ?_, hdone, hdigest, hwritten, hruns.running, huturns, fun k hk => ?_⟩
  · rw [hfirst, run_add ts.length 1 hto, run_succ 0 hu]
    rfl
  · cases k with
    | zero => exact ⟨s, rfl, State.busy_of_init hphase⟩
    | succ k =>
      obtain ⟨u, hto, hu, _⟩ := hbetween (k := k) (by omega)
      have hle : (ts.take k).count .core ≤ ts.count .core := (List.take_sublist k ts).count_le _
      exact ⟨u, (hfirst k).trans hto, hu.busy (by omega)⟩

end Sys2Proof.Machine
end

section
/-! PROOFS, 44_control. What each host transaction answers (R201-R214) and the sequencer's own phases (R191-R195), from
the decoder's groups, the cases of `exec`, the status word of each phase and the frame of a raised fault; and the phase
that only a START or a reset moves out of IDLE and DONE. -/

namespace Sys2Proof.Machine

/-! ## The rows of R82 with an operand in OP, whatever ADDR and DATA -/

section
variable (k : BitVec 2) (j : BitVec 3) (a : Nat) (d : Word)

theorem decodeRequest_rdRsvd : decodeRequest ⟨0b0001#4 ++ k, a, d⟩ = .rdRsvd k := by
  rw [(rsvdOp_eq_append k).1, decodeRequest_regRead, decodeRegRead_rsvd]

theorem decodeRequest_wrRsvd : decodeRequest ⟨0b0101#4 ++ k, a, d⟩ = .wrRsvd k d := by
  rw [(rsvdOp_eq_append k).2, decodeRequest_regWrite, decodeRegWrite_rsvd]

theorem decodeRequest_rdDigest : decodeRequest ⟨0b001#3 ++ j, a, d⟩ = .rdDigest j := by
  rw [(digestOp_eq_append j).1, decodeRequest_regRead, decodeRegRead_digest]

theorem decodeRequest_wrDigest : decodeRequest ⟨0b011#3 ++ j, a, d⟩ = .wrDigest j d := by
  rw [(digestOp_eq_append j).2, decodeRequest_regWrite, decodeRegWrite_digest]

end

/-! ## The status word of a phase (R32), and a START that is taken (R201) -/

section
variable {s : State} {data : Word}

theorem State.status_of_idle (h : s.phase = Phase.idle) : s.status = 0#32 := by
  simp [State.status, State.isDone, State.busy, h]

theorem State.status_of_busy (h : s.busy = true) : s.status = 1#32 := by
  have hdone : s.isDone = false := beq_eq_false_iff_ne.2 (s.busy_iff.1 h).2
  simp [State.status, hdone, h]

theorem start_taken_iff : (startBit data && !s.busy) = true ↔
    data.getLsbD 0 = true ∧ (s.phase = Phase.idle ∨ s.phase = Phase.done) := by
  rw [Bool.and_eq_true_iff, Bool.not_eq_true', State.busy_eq_false_iff, startBit]

theorem Turn.isStart_of_wrCtrl {r : HostReq} (h : decodeRequest r = .wrCtrl data) :
    (Turn.host r).isStart = startBit data := by
  simp only [Turn.isStart, h]

end

/-! ## The frame of a raised fault (R232) -/

section
variable (s : State) {f : FaultRec}

theorem State.addFault_frame_of_core (hf : f.isCore = true) :
    Recorded f s (s.addFault f) ∧ SameMessage s (s.addFault f) ∧ (s.addFault f).coreStopped = true :=
  ⟨⟨s.mem_addFault f, rfl⟩, State.readMsg_congr rfl rfl, by rw [State.addFault_coreStopped, hf, Bool.or_true]⟩

theorem State.addFault_frame_of_host (hf : f.isCore = false) :
    Recorded f s (s.addFault f) ∧ SameMessage s (s.addFault f) ∧ (s.addFault f).coreStopped = s.coreStopped :=
  ⟨⟨s.mem_addFault f, rfl⟩, State.readMsg_congr rfl rfl, by rw [State.addFault_coreStopped, hf, Bool.or_false]⟩

/-- The response that a faulting read leaves at none (log entry 5) is neither a byte of MSG nor part of the record. -/
theorem State.raiseRead_frame_of_host (hf : f.isCore = false) :
    RecordedByRead f s { s.addFault f with rdata := none } ∧ SameMessage s { s.addFault f with rdata := none } ∧
      ({ s.addFault f with rdata := none } : State).coreStopped = s.coreStopped := by
  obtain ⟨⟨hrecord, _⟩, hmsg, hstop⟩ := s.addFault_frame_of_host hf
  exact ⟨⟨hrecord, rfl⟩, hmsg, hstop⟩

end

/-! ## The phase outside a run -/

/-- Settles O33: both meanings are the state itself. -/
theorem idleAndDoneChangeNothing : Obligations.IdleAndDoneChangeNothing := fun _ => ⟨rfl, rfl⟩

/-- A core that is not busy has no step to take. -/
theorem exec_decodePhase_of_not_busy {s u : State} (h : s.busy = false) : exec (decodePhase s.phase) u = .next u := by
  obtain ⟨hidle, hdone⟩ := idleAndDoneChangeNothing u
  rcases s.busy_eq_false_iff.1 h with hphase | hphase <;> rw [hphase]
  · rw [decodePhase_idle, hidle]
  · rw [decodePhase_done, hdone]

/-- Settles O18: a transaction moves the phase only by a START that is taken, and a turn of the core passes. -/
theorem onlyStartLeavesIdleOrDone : Obligations.OnlyStartLeavesIdleOrDone := by
  intro s t hbusy hturn h
  rcases step_cases s with ⟨ts, hts, _⟩ | ⟨r, ts, hts, e⟩ | ⟨_, _, e⟩ | ⟨_, _, e⟩
  · exact absurd rfl (hturn .reset (by rw [hts, List.head?_cons])).1
  · have hno : (Turn.host r).isStart = false := (hturn _ (by rw [hts, List.head?_cons])).2
    rcases (exec_hostEffect (decodeRequest_isCore r) (e.symm.trans h)).phase with hsame | ⟨data, hi, hstart, _, _⟩
    · exact hsame
    · rw [Turn.isStart_of_wrCtrl hi, startBit, hstart] at hno
      cases hno
  · cases e.symm.trans h
    rfl
  · rw [exec_decodePhase_of_not_busy hbusy] at e
    cases e.symm.trans h
    rfl

/-! ## The host's register transactions -/

/-- Settles O24: each meaning responds 0. -/
theorem ctrlAndReservedReadZero : Obligations.CtrlAndReservedReadZero :=
  ⟨decodeRequest_regRead 0x0#4, decodeRequest_rdRsvd, fun _ _ => ⟨rfl, rfl⟩⟩

/-- Settles O25: the status word in DONE, in IDLE and in a phase that is busy. -/
theorem statusReadsThePhase : Obligations.StatusReadsThePhase := by
  refine ⟨decodeRequest_regRead 0x1#4, fun s => ⟨s.status, rfl, ?_⟩⟩
  split_ifs with hdone hidle
  · rw [State.status_of_done hdone]; rfl
  · rw [State.status_of_idle hidle]; rfl
  · rw [State.status_of_busy (s.busy_iff.2 ⟨hidle, hdone⟩)]; rfl

/-- Settles O26: each half by its own meaning, and LEN as a number by its two halves. -/
theorem lengthRegistersReadAndWrite : Obligations.LengthRegistersReadAndWrite :=
  ⟨fun a d => ⟨decodeRequest_regRead 0x2#4 a d, decodeRequest_regRead 0x3#4 a d, decodeRequest_regWrite 0x2#4 a d,
      decodeRequest_regWrite 0x3#4 a d⟩,
    fun _ _ => ⟨rfl, rfl, rfl, rfl, State.LEN_toNat _, State.LEN_toNat _⟩⟩

/-- Settles O27: each meaning is the state itself. -/
theorem readOnlyRegistersIgnoreWrites : Obligations.ReadOnlyRegistersIgnoreWrites :=
  ⟨fun j k a d => ⟨decodeRequest_regWrite 0x1#4 a d, decodeRequest_wrRsvd k a d, decodeRequest_wrDigest j a d⟩,
    fun _ _ _ _ => ⟨rfl, rfl, rfl⟩⟩

/-- Settles O28: a START that is taken, and one that is not. -/
theorem startBeginsARunUnlessBusy : Obligations.StartBeginsARunUnlessBusy := by
  refine ⟨decodeRequest_regWrite 0x0#4, fun s data => ⟨fun hbit hphase => ?_, fun hno => ?_⟩⟩
  · exact ⟨_, exec_wrCtrl_of_start (start_taken_iff.2 ⟨hbit, hphase⟩), rfl, rfl, State.readMsg_congr rfl rfl,
      State.status_of_busy (State.busy_of_init rfl)⟩
  · exact exec_wrCtrl_of_no_start (Bool.eq_false_iff.2 (mt start_taken_iff.1 hno))

theorem digestWord_toNat (dout : Vector Byte 32) {j : Nat} (hj : j < 8) :
    (digestWord dout (BitVec.ofNat 3 j)).toNat = dout[4 * j].toNat * 2 ^ 24 + dout[4 * j + 1].toNat * 2 ^ 16 +
      dout[4 * j + 2].toNat * 2 ^ 8 + dout[4 * j + 3].toNat := by
  have hindex : (BitVec.ofNat 3 j).toNat = j := Nat.mod_eq_of_lt hj
  simp only [digestWord, be32_toNat, hindex]

/-- Settles O29: once a FINAL has run the word of DOUT, before that the fault. -/
theorem digestReadsBigEndian : Obligations.DigestReadsBigEndian :=
  ⟨decodeRequest_rdDigest, fun s _ hj =>
    ⟨fun hwritten => ⟨_, exec_rdDigest_of_written hwritten, digestWord_toNat s.DOUT hj⟩,
      fun hnone => ⟨_, exec_rdDigest_of_unwritten hnone, s.raiseRead_frame_of_host rfl⟩⟩⟩

/-! ## The host's message transactions -/

/-- Settles O30: the written byte read back and every other read, or the fault. -/
theorem writeMsgStoresOneByte : Obligations.WriteMsgStoresOneByte := by
  refine ⟨decodeRequest_wrMsg, fun s idx addr data => ⟨fun hin => ?_, fun hout => ?_⟩⟩
  · have hread := s.readMsg_writeMsg (dataByte data) hin
    exact ⟨_, exec_wrMsg_of_range hin, ⟨_, (hread addr).trans (if_pos rfl), dataByte_toNat data⟩,
      fun a hne => (hread a).trans (if_neg hne), rfl⟩
  · exact ⟨_, exec_wrMsg_of_outside hout, s.addFault_frame_of_host rfl⟩

/-- Settles O31: the three cases of RD_MSG. -/
theorem readMsgReturnsTheByte : Obligations.ReadMsgReturnsTheByte :=
  ⟨decodeRequest_rdMsg, fun s _ _ =>
    ⟨fun b hb => ⟨_, exec_rdMsg_of_written hb, zext32_toNat b⟩,
      fun hout => ⟨_, exec_rdMsg_of_outside hout, s.raiseRead_frame_of_host rfl⟩,
      fun hin hnone => ⟨_, exec_rdMsg_of_unwritten hin hnone, s.raiseRead_frame_of_host rfl⟩⟩⟩

/-- DATA[7:0] zero-extended is DATA with its upper bits masked off (R83). -/
theorem zext32_dataByte (d : Word) : zext32 (dataByte d) = d &&& 0xFF#32 := by
  refine BitVec.eq_of_toNat_eq ?_
  rw [zext32_toNat, dataByte_toNat, BitVec.toNat_and]
  exact (Nat.and_two_pow_sub_one_eq_mod d.toNat 8).symm

/-- Settles O32: the address of the store holds the byte stored. -/
theorem writtenByteReadsBack : Obligations.WrittenByteReadsBack := by
  intro s idx idx' addr data hin
  have hread : (s.writeMsg addr (dataByte data)).readMsg addr = some (dataByte data) :=
    (s.readMsg_writeMsg _ hin addr).trans (if_pos rfl)
  exact ⟨_, _, exec_wrMsg_of_range hin, exec_rdMsg_of_written hread, congrArg some (zext32_dataByte data)⟩

/-! ## The sequencer's own phases -/

/-- Settles O34: LEN fits the memory or overruns it. -/
theorem initStartsARunUnlessTooLong : Obligations.InitStartsARunUnlessTooLong := by
  refine ⟨decodePhase_init, fun s => ?_⟩
  rw [← s.LEN_toNat]
  exact ⟨fun hfits => ⟨_, exec_init_of_fits hfits, rfl, fun _ _ => rfl, rfl, rfl, rfl, rfl, rfl, rfl,
      State.readMsg_congr rfl rfl⟩,
    fun hover => ⟨_, exec_init_of_overrun hover, s.addFault_frame_of_core rfl⟩⟩

/-- Settles O35: the meaning has one case. -/
theorem nextCountsTheBlock : Obligations.NextCountsTheBlock :=
  ⟨decodePhase_next, fun _ => ⟨_, rfl, rfl, rfl, rfl, State.readMsg_congr rfl rfl⟩⟩

/-- Settles O36: RSVD_PHASE is a core fault, whichever of the two codes it holds. -/
theorem reservedPhaseStopsTheCore : Obligations.ReservedPhaseStopsTheCore := fun s =>
  ⟨⟨_, rfl, s.addFault_frame_of_core rfl⟩, ⟨_, rfl, s.addFault_frame_of_core rfl⟩⟩

end Sys2Proof.Machine
end

section
/-! PROOFS, 60_exceptions. The registers of a position the invariant admits are at none of the three stops (log entry 7),
so a good state always steps (R230); and a core fault keeps the core where it is until a reset (R232). -/

namespace Sys2Proof.Machine

/-- EXPAND and ROUND stand at a round they have a word for, and FMT_PAD finds the padding byte inserted when the message
ended in an earlier block (R160, R172, R108). -/
theorem StopsAt.not_positionFor {i : Instr} {s : State} {f : Fault} (h : StopsAt s i f) : ¬s.PositionFor i := by
  intro hpos
  cases h with
  | expand ht => exact ht hpos.2
  | round ht => exact ht hpos.2
  | fmtPad hpad hrem =>
    obtain ⟨_, _, hins, _⟩ := hpos
    have hended : ¬s.L.toNat / 64 < s.i := of_decide_eq_false (hins.symm.trans hpad)
    omega

/-- The micro-operation that the phase of a good state selects has a next state. -/
theorem State.Inv.exec_decodePhase_next {s : State} (hs : s.Inv) : ∃ t, exec (decodePhase s.phase) s = .next t := by
  obtain ⟨_, _, _, hpos, _⟩ := State.inv_iff.1 hs
  exact (exec_next_or_stopsAt _ s).resolve_right fun ⟨_, hstop⟩ => hstop.not_positionFor hpos

/-- Settles O12: a reset, a transaction and a passing turn have a next state from any state, and the micro-operation of
the phase from one that meets the invariant, which says nothing of the tape. -/
theorem invariantStatesAlwaysStep : Obligations.InvariantStatesAlwaysStep := by
  intro s hs
  have htail : s.tail.Inv := hs
  rcases step_cases s with ⟨_, _, e⟩ | ⟨r, _, _, e⟩ | ⟨_, _, e⟩ | ⟨_, _, e⟩
  · exact ⟨_, e⟩
  · exact e ▸ exec_decodeRequest_next r s.tail
  · exact ⟨_, e⟩
  · exact e ▸ htail.exec_decodePhase_next

/-- Settles O17: a stopped core's turn passes, and a transaction writes no register of a busy core, whose START is
ignored (R201), nor takes a core fault out of the record. -/
theorem stoppedCoreStaysStopped : Obligations.StoppedCoreStaysStopped := by
  intro s t hstop hbusy hreset h
  rcases step_cases s with ⟨ts, hts, _⟩ | ⟨r, _, _, e⟩ | ⟨_, _, e⟩ | ⟨_, hrun, _⟩
  · exact absurd hts (hreset ts)
  · have heffect := exec_hostEffect (decodeRequest_isCore r) (e.symm.trans h)
    have hstill : t.coreStopped = true := heffect.coreStopped.trans hstop
    cases heffect with
    | start _ _ _ hidle => cases hidle.symm.trans hbusy
    | registers | fault | store =>
      exact ⟨hstill, hbusy, rfl, rfl, rfl, rfl, rfl, rfl, rfl, rfl, rfl, rfl, rfl, rfl, rfl⟩
  · cases e.symm.trans h
    exact ⟨hstop, hbusy, rfl, rfl, rfl, rfl, rfl, rfl, rfl, rfl, rfl, rfl, rfl, rfl, rfl⟩
  · cases hrun.symm.trans hstop

end Sys2Proof.Machine
end

section
/-! PROOFS, 70_reset. The values that R260 gives, for the state of reset and for the state a reset turn leaves (R261); and
the invariant right after reset, which is a state that a reset event leaves as it is. -/

namespace Sys2Proof.Machine

/-! ## The laws of a reset event that its fields alone do not say -/

@[simp] theorem State.resetEvent_status (s : State) : s.resetEvent.status = 0#32 :=
  State.status_of_idle s.resetEvent_phase

@[simp] theorem State.resetEvent_readMsg (s : State) (a : Nat) : s.resetEvent.readMsg a = none :=
  (State.readMsg_congr (s := State.resetOf s.msgCap) s.resetEvent_MSG s.resetEvent_msgCap a).trans
    (State.resetOf_readMsg s.msgCap a)

/-- A second reset changes nothing. -/
@[simp] theorem State.resetEvent_resetOf (cap : Nat) (ts : List Turn) :
    ({ State.resetOf cap with turns := ts } : State).resetEvent = { State.resetOf cap with turns := ts } := rfl

/-! ## The statements -/

/-- Settles O8: STATUS reads 0 because the phase is IDLE, and no address of the empty memory holds a byte; the rest are
fields of `State.resetOf`. -/
theorem resetLeavesIdleAndEmpty : Obligations.ResetLeavesIdleAndEmpty :=
  ⟨fun cap => ⟨rfl, State.status_of_idle rfl, rfl, rfl, rfl, State.resetOf_readMsg cap, rfl, rfl⟩, rfl⟩

/-- Settles O9: a reset turn steps to the reset event of the state without that turn. -/
theorem resetAbandonsTheRun : Obligations.ResetAbandonsTheRun := fun _ _ hturn =>
  ⟨_, step_of_reset_turn hturn, State.resetEvent_phase _, State.resetEvent_status _, State.resetEvent_LEN_LO _,
    State.resetEvent_LEN_HI _, State.resetEvent_faults _, State.resetEvent_readMsg _, State.resetEvent_doutWritten _,
    State.resetEvent_msgCap _, State.resetEvent_turns _⟩

/-- Settles O10: every reset event meets the invariant, and the state of reset is its own reset event. -/
theorem resetMeetsInvariant : Obligations.ResetMeetsInvariant := by
  intro cap ts
  rw [← State.resetEvent_resetOf cap ts]
  exact State.resetEvent_inv _

end Sys2Proof.Machine
end

section
/-! PROOFS, 30_encoding section 1, the bare table word (log entries 9 and 10). What a step runs from a state in which an
encoded form was placed; a table word that decodes is placed as the form it is read as. -/

namespace Sys2Proof.Machine

/-! ## A step from a placed form -/

/-- A placed phase code runs (R232): placing takes the core faults out of the record. -/
theorem State.place_phase_coreStopped (s : State) (code : BitVec 4) : (s.place (.phase code)).coreStopped = false := by
  simp [State.coreStopped, State.place]

/-- Placing adds one turn at the head of the tape, and the step takes it off again. -/
theorem step_place (s : State) (e : Encoded) :
    step (s.place e) = exec (decode e) { s.place e with turns := s.turns } := by
  cases e with
  | request r => exact step_of_host_turn rfl
  | phase code => exact step_of_core_turn rfl (s.place_phase_coreStopped code)

/-! ## A table word, by the form it is read as -/

theorem decodeTableWord_eq_some_iff {nbits w : Nat} {i : Instr} :
    decodeTableWord nbits w = some i ↔ ∃ e, readTableWord nbits w = .ok e ∧ decode e = i := by
  cases h : readTableWord nbits w <;> simp [decodeTableWord, h]

theorem State.withFetchWord_of_readTableWord {nbits w : Nat} {e : Encoded} (s : State)
    (h : readTableWord nbits w = .ok e) : s.withFetchWord nbits w = s.place e := by
  simp only [State.withFetchWord, State.placeTableWord, h]

/-- Settles O7: a word that decodes is read as some form, placing it places that form, and the step runs it. -/
theorem placedWordRunsNext : Obligations.PlacedWordRunsNext := by
  intro s nbits w i hdecode
  obtain ⟨e, hread, rfl⟩ := decodeTableWord_eq_some_iff.1 hdecode
  rw [s.withFetchWord_of_readTableWord hread]
  exact step_place s e

end Sys2Proof.Machine
end
